-- ==== Sys2Proof/Word.lean ====
section
/-! DEFINITION. The widths of the block's values (00_scope.md R6, R9): every value is an unsigned bit vector of the
width the spec states. The node record of 10_state.md R31 stands here too, because Config names one. -/

namespace Sys2Proof

/-- A host register or a command word, REG_W = 32 bits (R6). -/
abbrev Word := BitVec 32

/-- A symbol: a byte value, 0 to 255 (R6 ALPHABET). -/
abbrev Symbol := BitVec 8

/-- A node's weight, WEIGHT_W = 40 bits (R6). -/
abbrev Weight := BitVec 40

/-- A node-store index, NODE_IDX_W = 9 bits (R6). -/
abbrev NodeIdx := BitVec 9

/-- One record of the node store (R31), 67 bits. DEDUCED (log entry 15), safe: R46 gives its width as "58 bits (40 + 1 + 8 +
9 + 9)", but those fields sum to 67; the fields' own widths, which R31 defines, are kept. -/
structure NodeRec where
  weight : Weight
  isLeaf : Bool
  sym    : Symbol
  left   : NodeIdx
  right  : NodeIdx
  deriving DecidableEq, Repr, Inhabited

/-- The record whose every field is 0. -/
def NodeRec.zero : NodeRec :=
  { weight := 0, isLeaf := false, sym := 0, left := 0, right := 0 }

end Sys2Proof
end

