-- ==== Sys2Proof/Syntax.lean ====
section
/-! DEFINITION. The nine commands (30_encoding.md R66), the host's bus operations and registers (R72, R16), and the
inputs the outside world can give the block (R91). -/

namespace Sys2Proof

/-- The nine commands. A command that ignores SYM has no operand: any SYM gives the same command (R64, R67, R70). The
ARG operand of SET_FREQ and READ_NODE is not in the word; it is read from `cur_arg` (R65). -/
inductive Instr where
  /-- NOP (R88) -/
  | nop
  /-- CLEAR (R89) -/
  | clear
  /-- COUNT_BYTE s (R102) -/
  | countByte (s : Symbol)
  /-- SET_FREQ s (R104) -/
  | setFreq (s : Symbol)
  /-- READ_FREQ s (R106) -/
  | readFreq (s : Symbol)
  /-- BUILD_TREE (R122) -/
  | buildTree
  /-- READ_NODE (R126) -/
  | readNode
  /-- GEN_CODES (R145) -/
  | genCodes
  /-- READ_CODE s (R147) -/
  | readCode (s : Symbol)
  deriving DecidableEq, Repr

/-- The registers of the window, one per word slot (R16). `reserved` covers 0x34, 0x38 and 0x60 to 0x7C in ascending
order. -/
inductive Reg where
  | cmd | arg | status | errAcc | result0 | result1 | treeInfo | totalLo | totalHi | wlenLo | wlenHi | maxLen | nodeInfo | id
  | codeBits (k : Fin 8)
  | reserved (k : Fin 10)
  deriving DecidableEq, Repr

/-- One operation of the host program (R72, R74). `bytes` is the width of the access; only 4 is defined (R50), so
the data is one word. `wait` is the polling loop WAIT. -/
inductive HostOp where
  | rd (off bytes : Nat)
  | wr (off bytes : Nat) (v : Word)
  | wait
  deriving DecidableEq, Repr

/-- What the outside world does next: a host operation, or an edge of the reset input (R91, R185). -/
inductive Input where
  | host (op : HostOp)
  | resetOn
  | resetOff
  deriving DecidableEq, Repr

/-- Whether an input is one of the host's bus operations (R72), not an edge of the reset input. -/
def Input.isHostOp : Input → Bool
  | .host _ => true
  | .resetOn => false
  | .resetOff => false

/-- Statements of the host-program notation (R73, R74). -/
inductive Stmt where
  /-- `WR <reg>, <v>` -/
  | wr (r : Reg) (v : Word)
  /-- `RD <reg>` -/
  | rd (r : Reg)
  /-- `ISSUE <MNEMONIC> [<sym>]`: the write alone, with no WAIT -/
  | issue (i : Instr)
  /-- `WAIT` -/
  | wait
  /-- `<MNEMONIC> [<sym>]` as a statement -/
  | command (i : Instr)
  /-- `SET_FREQ <sym>, <v>` -/
  | setFreq (s : Symbol) (v : Word)
  /-- `READ_NODE <i>` -/
  | readNode (i : NodeIdx)
  /-- `COUNT_STR "<text>"` -/
  | countStr (text : List Symbol)
  /-- `EXPECT <reg>, <v>`: the block sees only the read -/
  | expect (r : Reg) (v : Word)
  deriving DecidableEq, Repr

end Sys2Proof
end

