-- ==== Sys2Proof/Decode.lean ====
section
/-! DEFINITION. The decoder of 30_encoding.md R67, total on all 2^32 words, and the encoder of R63 and R66. -/

namespace Sys2Proof

/-- Why a word is illegal: some bit of RSV is set (R68), or its opcode is unassigned (R69). -/
inductive Illegal where
  | reservedBits (rsv : BitVec 16)
  | unassignedOpcode (op : BitVec 8)
  deriving DecidableEq, Repr

/-- The answer of the decoder: `Command | Illegal` (R67). -/
inductive Decoded where
  | command (i : Instr)
  | illegal (why : Illegal)
  deriving DecidableEq, Repr

/-- OP, bits [7:0] (R63). -/
def opField (w : Word) : BitVec 8 := w.extractLsb' 0 8

/-- SYM, bits [15:8] (R63). -/
def symField (w : Word) : Symbol := w.extractLsb' 8 8

/-- RSV, bits [31:16] (R63). -/
def rsvField (w : Word) : BitVec 16 := w.extractLsb' 16 16

/-- The opcode map of R66, for an opcode and the SYM field beside it. -/
def decodeOp (op : BitVec 8) (sym : Symbol) : Decoded :=
  match op.toNat with
  | 0x00 => .command .nop
  | 0x01 => .command .clear
  | 0x02 => .command (.countByte sym)
  | 0x03 => .command (.setFreq sym)
  | 0x04 => .command (.readFreq sym)
  | 0x10 => .command .buildTree
  | 0x11 => .command .readNode
  | 0x20 => .command .genCodes
  | 0x21 => .command (.readCode sym)
  | _ => .illegal (.unassignedOpcode op)

/-- R67. The reserved bits are checked first, so a word with RSV ≠ 0 is illegal whatever its OP (R68). -/
def decode (w : Word) : Decoded :=
  if rsvField w ≠ 0 then .illegal (.reservedBits (rsvField w)) else decodeOp (opField w) (symField w)

/-- The opcode of a command (R66). -/
def Instr.opcode : Instr → BitVec 8
  | .nop => 0x00
  | .clear => 0x01
  | .countByte _ => 0x02
  | .setFreq _ => 0x03
  | .readFreq _ => 0x04
  | .buildTree => 0x10
  | .readNode => 0x11
  | .genCodes => 0x20
  | .readCode _ => 0x21

/-- The symbol operand of a command that takes one (R64). -/
def Instr.sym? : Instr → Option Symbol
  | .nop => none
  | .clear => none
  | .countByte s => some s
  | .setFreq s => some s
  | .readFreq s => some s
  | .buildTree => none
  | .readNode => none
  | .genCodes => none
  | .readCode s => some s

/-- The word `{16'h0000, sym[7:0], OP}`, with sym = 0 when the command takes none (R63, R74). -/
def encode (i : Instr) : Word :=
  0#16 ++ i.sym?.getD 0 ++ i.opcode

/-- The instruction the decoder reads from the bits `w` of an opcode-table row. A command is one 32-bit word and the
table numbers its bits as the spec does (R9, R63), so the word is `w` itself. -/
def decodeTableWord (nbits w : Nat) : Option Instr :=
  match decode (BitVec.ofNat 32 (w % 2 ^ nbits)) with
  | .command i => some i
  | .illegal _ => none

end Sys2Proof
end

