-- ==== Sys2Proof/Config.lean ====
section
/-! DEFINITION. What an implementation fixes, and the free values: constants with no body, of which nothing in Lean can
prove a value. -/

namespace Sys2Proof

/-- The ID register's constant, "HUF1" (R27). -/
def Config.idWord : Word := 0x48554631#32

/-- The size of the register window in bytes (R6 WINDOW, R45). -/
def Config.windowBytes : Nat := 128

/-- MAX_NODES (R6). -/
def Config.maxNodes : Nat := 511

/-- WINDOW_BASE (R6, R54; OPEN): where the platform places the register window. -/
opaque Config.windowBase : Nat

/-- DESIGN CHOICE (log entry 2), safe: the free 32-bit input `draw` of a read made while Busy (R81, R86). It is applied to
the counter `env.draws`, so each such read has a value of its own. -/
opaque Config.draw : Nat → Word

/-- DESIGN CHOICE (log entry 3), safe: LATENCY (R6, R93; OPEN), counted in outside steps. `Config.latency k` is how
many host or reset-line steps come between the k-th acceptance and its completion, when that many are left to come. A
natural number, so every command completes (R93's fairness). -/
opaque Config.latency : Nat → Nat

/-- DESIGN CHOICE (log entry 6), safe: what reading the node store at index 511 gives. There is no such entry, and no
reachable state reads it (R46); the 9-bit ROOT, left and right fields could name it in a state no rule reaches. -/
opaque Config.absentNode : NodeRec

end Sys2Proof
end

