-- ==== Sys2Proof/Machine/State.lean ====
section
/-! DEFINITION. The state of the block (10_state.md R15), the outside world's side of it, the reasons a step can stop,
and the state right after reset (R37). -/

namespace Sys2Proof.Machine

/-- The engine's phase (R33). -/
inductive Phase where
  | idle
  | busy
  deriving DecidableEq, Repr

/-- "The complete state of the block is the following record" (R15), field by field. -/
structure Block where
  /-- engine phase (R33) -/
  phase : Phase
  /-- CUR_CMD: the command word latched at acceptance (R33) -/
  curCmd : Word
  /-- CUR_ARG: ARG latched at acceptance (R33) -/
  curArg : Word
  /-- ARG (R26) -/
  arg : Word
  /-- TREE_VALID (R21) -/
  treeValid : Bool
  /-- CODES_VALID (R22) -/
  codesValid : Bool
  /-- ERR (R23) -/
  err : BitVec 4
  /-- ERR_ACC, bits 6:0 (R25) -/
  errAcc : BitVec 7
  /-- ROOT (R28) -/
  root : NodeIdx
  /-- NODE_COUNT (R28) -/
  nodeCount : BitVec 9
  /-- TOTAL (R28) -/
  total : Weight
  /-- WLEN (R28) -/
  wlen : BitVec 48
  /-- MAXLEN (R28) -/
  maxLen : BitVec 8
  /-- RESULT0 (R29) -/
  result0 : Word
  /-- RESULT1 (R29) -/
  result1 : Word
  /-- NODE_INFO (R29) -/
  nodeInfo : Word
  /-- CODEBITS0 to CODEBITS7 (R29) -/
  codeBits : Vector Word 8
  /-- FREQ (R30) -/
  freq : Vector Word 256
  /-- NODE (R31) -/
  node : Vector NodeRec 511
  /-- CODE_LEN (R32) -/
  codeLen : Vector (BitVec 8) 256
  /-- CODE_VAL (R32) -/
  codeVal : Vector (BitVec 256) 256
  deriving DecidableEq, Repr

/-- The outside world: what it will do next and what it has seen. None of this is a register of the block; log entries
2 to 5 name each field. -/
structure Env where
  /-- what the host and the reset input do next, in order (R91; log entry 4) -/
  inputs : List Input
  /-- the reset input is held (R185; log entry 5) -/
  resetHeld : Bool
  /-- outside steps still to come before the completion of the command in progress (R91, R93; log entry 3) -/
  countdown : Nat
  /-- acceptances so far, the argument of `Config.latency` (log entry 3) -/
  accepts : Nat
  /-- drawn reads so far, the argument of `Config.draw` (log entry 2) -/
  draws : Nat
  /-- the values the host's reads have returned, oldest first (R94; log entry 4) -/
  reads : List Word
  deriving DecidableEq, Repr

/-- The machine: the block and the outside world. -/
structure State where
  blk : Block
  env : Env
  deriving DecidableEq, Repr

/-- No constructor: "The block has no undefined command, so the model has no fault outcome" (R170). -/
inductive Fault where
  deriving DecidableEq, Repr

/-- Why a step has no meaning. -/
inductive Refusal where
  /-- An instruction that has no meaning in this model, raised by an arm of `exec` alone; safe. No arm raises it now. -/
  | notModelled (mnemonic : String)
  /-- A byte, halfword, misaligned, over-wide or out-of-window host access, raised by a host access; safe (R50: "A model
  refuses a program that performs one"). -/
  | undefinedAccess
  /-- A host access while reset is held, raised by a host access; safe (R185: "a model refuses a program that performs
  one"). -/
  | accessDuringReset
  deriving DecidableEq, Repr

/-- The block after reset (R37). DESIGN CHOICE (log entry 1), unsafe: `curCmd`, `curArg`, `node`, `codeLen` and `codeVal`
are zero; the spec leaves them unspecified. -/
def Block.reset : Block where
  phase := .idle
  curCmd := 0
  curArg := 0
  arg := 0
  treeValid := false
  codesValid := false
  err := 0
  errAcc := 0
  root := 0
  nodeCount := 0
  total := 0
  wlen := 0
  maxLen := 0
  result0 := 0
  result1 := 0
  nodeInfo := 0
  codeBits := Vector.replicate 8 0
  freq := Vector.replicate 256 0
  node := Vector.replicate 511 NodeRec.zero
  codeLen := Vector.replicate 256 0
  codeVal := Vector.replicate 256 0

/-- The outside world right after reset: reset released, no program loaded, no value read (log entries 2 to 5). -/
def Env.reset : Env where
  inputs := []
  resetHeld := false
  countdown := 0
  accepts := 0
  draws := 0
  reads := []

/-- The machine right after reset (R186): Idle, and accepting the next write to CMD. -/
def State.reset : State where
  blk := Block.reset
  env := Env.reset

/-- The state with another block and the same outside world. -/
def State.withBlk (s : State) (b : Block) : State := { s with blk := b }

/-- The state with another outside world and the same block. -/
def State.withEnv (s : State) (e : Env) : State := { s with env := e }

/-- A host program, with the edges of the reset input among its operations, loaded from outside (log entry 4). -/
def State.withInputs (s : State) (inputs : List Input) : State :=
  { s with env := { s.env with inputs := inputs } }

end Sys2Proof.Machine
end

