-- ==== Sys2Proof/Machine/Operands.lean ====
section
/-! DEFINITION. How operands are assembled (30_encoding.md R65; the SYM operand is taken by the decoder, R64), how one
index names an array entry (20_memory.md R46, R47), and the byte lanes of R48. -/

namespace Sys2Proof.Machine

/-- SET_FREQ's frequency: `cur_arg[31:0]`, all 32 bits (R65). -/
def freqOperand (curArg : Word) : Word := curArg

/-- READ_NODE's index: `cur_arg[8:0]`; `cur_arg[31:9]` is ignored (R65). -/
def nodeOperand (curArg : Word) : NodeIdx := curArg.extractLsb' 0 9

/-- `FREQ[s]` (R47). -/
def freqAt (freq : Vector Word 256) (s : Symbol) : Word := freq[s.toNat]'s.isLt

/-- `CODE_LEN[s]` (R47). -/
def codeLenAt (codeLen : Vector (BitVec 8) 256) (s : Symbol) : BitVec 8 := codeLen[s.toNat]'s.isLt

/-- `CODE_VAL[s]` (R47). -/
def codeValAt (codeVal : Vector (BitVec 256) 256) (s : Symbol) : BitVec 256 := codeVal[s.toNat]'s.isLt

/-- `NODE[i]` (R47). Index 511 names no entry, and no reachable state reads it (R46); what it would give is the free value
`Config.absentNode` (log entry 6). -/
def nodeAt (node : Vector NodeRec 511) (i : NodeIdx) : NodeRec := (node[i.toNat]?).getD Config.absentNode

/-- The bits `[32k+31 : 32k]` of a code value (R29, R147). -/
def codeWord (val : BitVec 256) (k : Nat) : Word := val.extractLsb' (32 * k) 32

/-- Byte lane j of a register word on a byte-addressed platform bus: bits `[8j+7 : 8j]` (R48). -/
def byteLane (w : Word) (j : Fin 4) : BitVec 8 := w.extractLsb' (8 * j.val) 8

/-- The word four byte lanes carry, lane 0 in the low bits (R48). -/
def wordOfLanes (b0 b1 b2 b3 : BitVec 8) : Word := b3 ++ b2 ++ b1 ++ b0

end Sys2Proof.Machine
end

