-- ==== Sys2Proof/Machine/Flags.lean ====
section
/-! DEFINITION. The status flags, the error codes and the computed register words (10_state.md R19 to R29,
60_exceptions.md R165). -/

namespace Sys2Proof.Machine

/-- The error codes of R165. Codes 7 to 15 are reserved and never produced, so they have no constructor. -/
inductive ErrCode where
  | ok
  | emptyInput
  | invalidInput
  | alphabetOverflow
  | countOverflow
  | busyReject
  | illegalCmd
  deriving DecidableEq, Repr

/-- The number of an error code, as STATUS.ERR holds it (R165). -/
def ErrCode.code : ErrCode → BitVec 4
  | .ok => 0
  | .emptyInput => 1
  | .invalidInput => 2
  | .alphabetOverflow => 3
  | .countOverflow => 4
  | .busyReject => 5
  | .illegalCmd => 6

/-- `ERR_ACC[code] <- 1` (R167); code 0 raises nothing. -/
def raiseAcc (acc : BitVec 7) (c : ErrCode) : BitVec 7 :=
  if c = .ok then acc else acc ||| (1#7 <<< c.code.toNat)

/-- The alphabet, 0 to 255 in ascending order (R6 ALPHABET). -/
def alphabet : List Symbol := (List.range 256).map (BitVec.ofNat 8)

/-- The frequency table the tree builder sees: `{ (s, FREQ[s]) | s in 0..255, FREQ[s] ≠ 0 }` (R101), in the ascending
symbol order that BUILD_TREE imposes (R120). -/
def presentEntries (freq : Vector Word 256) : List (Symbol × Word) :=
  (alphabet.zip freq.toList).filter fun e => e.2 != 0

/-- The present symbols in ascending order: `[ s for s in 0..255 if FREQ[s] != 0 ]` (R120, R122). -/
def presentSymbols (freq : Vector Word 256) : List Symbol := (presentEntries freq).map Prod.fst

/-- STATUS.NSYM, the number of present symbols, 9 bits (R24). -/
def nsym (freq : Vector Word 256) : BitVec 9 := BitVec.ofNat 9 (presentSymbols freq).length

/-- STATUS as a word (R19). -/
def statusWord (b : Block) : Word :=
  0#15 ++ nsym b.freq ++ b.err ++ 0#1 ++ BitVec.ofBool b.codesValid ++ BitVec.ofBool b.treeValid
    ++ BitVec.ofBool (b.phase == .busy)

/-- ERR_ACC as a word; bits [31:7] read 0 (R25). -/
def errAccWord (b : Block) : Word := b.errAcc.setWidth 32

/-- TREEINFO: ROOT in [8:0], NODE_COUNT in [24:16] (R28). -/
def treeInfoWord (b : Block) : Word := 0#7 ++ b.nodeCount ++ 0#7 ++ b.root

/-- TOTAL_LO = TOTAL[31:0] (R28). -/
def totalLoWord (b : Block) : Word := b.total.extractLsb' 0 32

/-- TOTAL_HI = TOTAL[39:32] in [7:0] (R28). -/
def totalHiWord (b : Block) : Word := (b.total.extractLsb' 32 8).setWidth 32

/-- WLEN_LO = WLEN[31:0] (R28). -/
def wlenLoWord (b : Block) : Word := b.wlen.extractLsb' 0 32

/-- WLEN_HI = WLEN[47:32] in [15:0] (R28). -/
def wlenHiWord (b : Block) : Word := (b.wlen.extractLsb' 32 16).setWidth 32

/-- MAXLEN in [7:0] (R28). -/
def maxLenWord (b : Block) : Word := b.maxLen.setWidth 32

/-- NODE_INFO of a record: `{5'b00000, is_leaf, sym[7:0], right[8:0], left[8:0]}` (R29, R126). -/
def nodeInfoWord (r : NodeRec) : Word :=
  0#5 ++ BitVec.ofBool r.isLeaf ++ r.sym ++ r.right ++ r.left

end Sys2Proof.Machine
end

