-- ==== Sys2Proof/Machine/Ops.lean ====
section
/-! DEFINITION. The shared operations: array writes (20_memory.md R47), the command lifecycle accept, complete and reject
(40_command_interface.md R83 to R85), invalidation (R100) and the result registers (R29).

Reporting an error is the one operation `Block.finish`, called by `Block.complete` (R84, R166 to R168). There is no
return from an error (R173): NOP and every other completion go through the same operation. -/

namespace Sys2Proof.Machine

/-- `FREQ[s] <- v` (R47). -/
def writeFreq (freq : Vector Word 256) (s : Symbol) (v : Word) : Vector Word 256 := freq.set s.toNat v s.isLt

/-- `CODE_LEN[s] <- v` (R47). -/
def writeCodeLen (codeLen : Vector (BitVec 8) 256) (s : Symbol) (v : BitVec 8) : Vector (BitVec 8) 256 :=
  codeLen.set s.toNat v s.isLt

/-- `CODE_VAL[s] <- v` (R47). -/
def writeCodeVal (codeVal : Vector (BitVec 256) 256) (s : Symbol) (v : BitVec 256) : Vector (BitVec 256) 256 :=
  codeVal.set s.toNat v s.isLt

/-- `NODE[i + k] <- recs[k]` for every k; entries past the list are not written (R47, R122). -/
def writeNodesFrom (node : Vector NodeRec 511) : Nat → List NodeRec → Vector NodeRec 511
  | _, [] => node
  | i, r :: rest => writeNodesFrom (node.setIfInBounds i r) (i + 1) rest

/-- What a command's `run` gives (R84, R166): the state its assignments leave, or a failing code and no effect. -/
inductive Run where
  | ok (effects : Block)
  | fail (code : ErrCode)
  deriving DecidableEq, Repr

/-- The end of a completion step: `ERR <- code; if code != OK then ERR_ACC[code] <- 1; phase <- Idle` (R84). -/
def Block.finish (b : Block) (c : ErrCode) : Block :=
  { b with err := c.code, errAcc := raiseAcc b.errAcc c, phase := .idle }

/-- The completion step (R84): the effects only when the code is OK (R168). -/
def Block.complete (b : Block) : Run → Block
  | .ok effects => effects.finish .ok
  | .fail code => b.finish code

/-- The completion step on the machine: the outside world takes no step with it (R84: "no host access is ordered inside
it"). -/
def State.complete (s : State) (r : Run) : State := s.withBlk (s.blk.complete r)

/-- Accept (R83). -/
def Block.accept (b : Block) (v : Word) : Block :=
  { b with
    curCmd := v
    curArg := b.arg
    phase := .busy
    errAcc := if decode v = .command .clear then 0 else b.errAcc }

/-- Reject (R85): only `ERR_ACC[5] <- 1`. -/
def Block.reject (b : Block) : Block := { b with errAcc := raiseAcc b.errAcc .busyReject }

/-- `ARG <- v` (R82). -/
def Block.writeArg (b : Block) (v : Word) : Block := { b with arg := v }

/-- `invalidate()` (R100). -/
def Block.invalidate (b : Block) : Block :=
  { b with treeValid := false, codesValid := false, root := 0, nodeCount := 0, total := 0, wlen := 0, maxLen := 0 }

/-- A write to FREQ and the invalidation it ends with (R100, R102, R104). -/
def Block.setFreq (b : Block) (s : Symbol) (v : Word) : Block :=
  { b with freq := writeFreq b.freq s v }.invalidate

/-- `for s in 0..255: FREQ[s] <- 0` and the invalidation it ends with (R89). -/
def Block.clearFreq (b : Block) : Block := { b with freq := Vector.replicate 256 0 }.invalidate

/-- All eleven result words are written together (R29). -/
def Block.setResults (b : Block) (r0 r1 info : Word) (bits : Vector Word 8) : Block :=
  { b with result0 := r0, result1 := r1, nodeInfo := info, codeBits := bits }

end Sys2Proof.Machine
end

