-- ==== Sys2Proof/Machine/Bus.lean ====
section
/-! DEFINITION. The host's accesses (40_command_interface.md R81, R82), the polling loop (30_encoding.md R74), the reset
input (70_reset_and_hazards.md R185), and whose turn it is (R91). -/

namespace Sys2Proof.Machine

/-- The byte offset of a register (R16). -/
def regOffset : Reg → Nat
  | .cmd => 0x00
  | .arg => 0x04
  | .status => 0x08
  | .errAcc => 0x0C
  | .result0 => 0x10
  | .result1 => 0x14
  | .treeInfo => 0x18
  | .totalLo => 0x1C
  | .totalHi => 0x20
  | .wlenLo => 0x24
  | .wlenHi => 0x28
  | .maxLen => 0x2C
  | .nodeInfo => 0x30
  | .id => 0x3C
  | .codeBits k => 0x40 + 4 * k.val
  | .reserved k => if k.val < 2 then 0x34 + 4 * k.val else 0x58 + 4 * k.val

/-- The platform's address of a register: WINDOW_BASE is the platform's (R45, R54). -/
def regAddress (r : Reg) : Nat := Config.windowBase + regOffset r

/-- The register at an offset of the window (R16); none when the offset is misaligned or outside it (R50). -/
def regAt (off : Nat) : Option Reg :=
  match off with
  | 0x00 => some .cmd
  | 0x04 => some .arg
  | 0x08 => some .status
  | 0x0C => some .errAcc
  | 0x10 => some .result0
  | 0x14 => some .result1
  | 0x18 => some .treeInfo
  | 0x1C => some .totalLo
  | 0x20 => some .totalHi
  | 0x24 => some .wlenLo
  | 0x28 => some .wlenHi
  | 0x2C => some .maxLen
  | 0x30 => some .nodeInfo
  | 0x34 => some (.reserved 0)
  | 0x38 => some (.reserved 1)
  | 0x3C => some .id
  | 0x40 => some (.codeBits 0)
  | 0x44 => some (.codeBits 1)
  | 0x48 => some (.codeBits 2)
  | 0x4C => some (.codeBits 3)
  | 0x50 => some (.codeBits 4)
  | 0x54 => some (.codeBits 5)
  | 0x58 => some (.codeBits 6)
  | 0x5C => some (.codeBits 7)
  | 0x60 => some (.reserved 2)
  | 0x64 => some (.reserved 3)
  | 0x68 => some (.reserved 4)
  | 0x6C => some (.reserved 5)
  | 0x70 => some (.reserved 6)
  | 0x74 => some (.reserved 7)
  | 0x78 => some (.reserved 8)
  | 0x7C => some (.reserved 9)
  | _ => none

/-- The register an access names, when the access is defined: 32 bits wide, aligned, in the window (R50). -/
def accessReg (off bytes : Nat) : Option Reg := if bytes = 4 then regAt off else none

/-- The register's word while Idle (R16, R34, R35). -/
def idleWord (b : Block) : Reg → Word
  | .cmd => 0
  | .arg => b.arg
  | .status => statusWord b
  | .errAcc => errAccWord b
  | .result0 => b.result0
  | .result1 => b.result1
  | .treeInfo => treeInfoWord b
  | .totalLo => totalLoWord b
  | .totalHi => totalHiWord b
  | .wlenLo => wlenLoWord b
  | .wlenHi => wlenHiWord b
  | .maxLen => maxLenWord b
  | .nodeInfo => b.nodeInfo
  | .id => Config.idWord
  | .codeBits k => b.codeBits[k.val]
  | .reserved _ => 0

/-- The word a read gives while Busy, for the free input `draw` (R81, R86). -/
def busyWord (b : Block) (draw : Word) : Reg → Word
  | .cmd => 0
  | .arg => b.arg
  | .status => draw.extractLsb' 1 31 ++ 1#1
  | .errAcc => draw
  | .result0 => draw
  | .result1 => draw
  | .treeInfo => draw
  | .totalLo => draw
  | .totalHi => draw
  | .wlenLo => draw
  | .wlenHi => draw
  | .maxLen => draw
  | .nodeInfo => draw
  | .id => Config.idWord
  | .codeBits _ => draw
  | .reserved _ => 0

/-- Registers whose read while Busy takes a draw (R81). -/
def readsDraw : Reg → Bool
  | .cmd => false
  | .arg => false
  | .id => false
  | .reserved _ => false
  | .status => true
  | .errAcc => true
  | .result0 => true
  | .result1 => true
  | .treeInfo => true
  | .totalLo => true
  | .totalHi => true
  | .wlenLo => true
  | .wlenHi => true
  | .maxLen => true
  | .nodeInfo => true
  | .codeBits _ => true

/-- `BusRead(off)` (R81). -/
def busRead (b : Block) (draw : Word) (r : Reg) : Word :=
  match b.phase with
  | .idle => idleWord b r
  | .busy => busyWord b draw r

/-- `BusWrite(off, v)` on the block (R82, R35). -/
def busWrite (b : Block) (r : Reg) (v : Word) : Block :=
  match r with
  | .cmd => if b.phase = .idle then b.accept v else b.reject
  | .arg => b.writeArg v
  | .status => b
  | .errAcc => b
  | .result0 => b
  | .result1 => b
  | .treeInfo => b
  | .totalLo => b
  | .totalHi => b
  | .wlenLo => b
  | .wlenHi => b
  | .maxLen => b
  | .nodeInfo => b
  | .id => b
  | .codeBits _ => b
  | .reserved _ => b

/-- An outside step has been taken: one fewer is to come before the completion (R91; log entry 3). -/
def Env.tick (e : Env) : Env := { e with countdown := e.countdown - 1 }

/-- An acceptance: the number of outside steps before its completion is free (R91, R93; log entry 3). -/
def Env.startCommand (e : Env) : Env :=
  { e with countdown := Config.latency e.accepts, accepts := e.accepts + 1 }

/-- A read has returned a word (R94). -/
def Env.record (e : Env) (v : Word) : Env := { e with reads := e.reads ++ [v] }

/-- The free input of a read, and the outside world after it has been drawn (R81; log entry 2). -/
def Env.takeDraw (e : Env) (taken : Bool) : Env := if taken then { e with draws := e.draws + 1 } else e

/-- One host read (R81): the block is unchanged, and the word is recorded. -/
def hostRead (r : Reg) (s : State) : State :=
  let word := busRead s.blk (Config.draw s.env.draws) r
  s.withEnv (((s.env.takeDraw (s.blk.phase == .busy && readsDraw r)).record word).tick)

/-- One host write (R82). An accepted command starts its own countdown. -/
def hostWrite (r : Reg) (v : Word) (s : State) : State :=
  { blk := busWrite s.blk r v
    env := if r = .cmd ∧ s.blk.phase = .idle then s.env.startCommand else s.env.tick }

/-- One poll of WAIT (R74): a read of STATUS; the loop is over when bit 0 of the word read is 0. -/
def hostPoll (rest : List Input) (s : State) : State :=
  let t := hostRead .status s
  if (busRead s.blk (Config.draw s.env.draws) .status).getLsbD 0 then t else t.withInputs rest

/-- One host operation; `rest` is what comes after it. An access the spec does not define is refused (R50), and so is one
made while reset is held (R185). -/
def hostStep (op : HostOp) (rest : List Input) (s : State) : Host.Outcome State Fault Refusal :=
  if s.env.resetHeld then .refused .accessDuringReset
  else
    match op with
    | .rd off bytes =>
      match accessReg off bytes with
      | some r => .next ((hostRead r s).withInputs rest)
      | none => .refused .undefinedAccess
    | .wr off bytes v =>
      match accessReg off bytes with
      | some r => .next ((hostWrite r v s).withInputs rest)
      | none => .refused .undefinedAccess
    | .wait => .next (hostPoll rest s)

/-- Reset applied (R185): every piece of the block's state takes its reset value, and a command in progress is
abandoned. The reset input is then held until it is released (log entry 5). -/
def applyReset (s : State) : State :=
  { blk := Block.reset, env := { s.env with resetHeld := true, countdown := 0 } }

/-- The reset input released (log entry 5). -/
def releaseReset (s : State) : State := s.withEnv { s.env.tick with resetHeld := false }

/-- The next outside step (R91). -/
def inputStep (i : Input) (rest : List Input) (s : State) : Host.Outcome State Fault Refusal :=
  match i with
  | .host op => hostStep op rest s
  | .resetOn => .next ((applyReset s).withInputs rest)
  | .resetOff => .next ((releaseReset s).withInputs rest)

/-- Whether the engine takes the next step (R91): a command is in progress, reset is not held, and the outside steps that
come before its completion are over, or none is left to come. -/
def engineTurn (s : State) : Bool :=
  s.blk.phase == .busy && !s.env.resetHeld && (s.env.countdown == 0 || s.env.inputs.isEmpty)

end Sys2Proof.Machine
end

