-- ==== Sys2Proof/Machine/Codes.lean ====
section
/-! DEFINITION. The code generator: GEN_CODES and READ_CODE (43_code_generator.md). -/

namespace Sys2Proof.Machine

/-- The code table while GEN_CODES fills it: CODE_LEN and CODE_VAL (R32). -/
structure CodeTable where
  len : Vector (BitVec 8) 256
  val : Vector (BitVec 256) 256
  deriving DecidableEq, Repr

/-- The value of a path, its first edge most significant: `Σ p[k] · 2^(len−1−k)` (R12). An edge to the right is 1. -/
def pathValue (path : List Bool) : Nat := path.foldl (fun v bit => 2 * v + bit.toNat) 0

/-- `CODE_LEN[s] <- length(path); CODE_VAL[s] <- its value` (R142, R144). -/
def CodeTable.put (t : CodeTable) (s : Symbol) (path : List Bool) : CodeTable :=
  { len := writeCodeLen t.len s (BitVec.ofNat 8 path.length)
    val := writeCodeVal t.val s (BitVec.ofNat 256 (pathValue path)) }

/-- `walk(j, path)` (R144). The number bounds the depth: a tree of at most 256 leaves has no path of more than 256
nodes (R150), so on a tree the bound is never met. Where the store holds no tree (in states no rule reaches), R144's recursion need
not end and the table is left as it is (log entry 6). -/
def walk (node : Vector NodeRec 511) : Nat → NodeIdx → List Bool → CodeTable → CodeTable
  | 0, _, _, t => t
  | d + 1, j, path, t =>
    if (nodeAt node j).isLeaf then t.put (nodeAt node j).sym path
    else walk node d (nodeAt node j).right (path ++ [true]) (walk node d (nodeAt node j).left (path ++ [false]) t)

/-- `for s in 0..255: CODE_LEN[s] <- 0; CODE_VAL[s] <- 0` (R145). -/
def CodeTable.empty : CodeTable := { len := Vector.replicate 256 0, val := Vector.replicate 256 0 }

/-- The code table of the tree at `root` (R145): the walk, or the one-bit code "0" for a tree of one leaf (R146). -/
def codeTableOf (node : Vector NodeRec 511) (root : NodeIdx) : CodeTable :=
  if (nodeAt node root).isLeaf then CodeTable.empty.put (nodeAt node root).sym [false]
  else walk node 256 root [] CodeTable.empty

/-- `n = (NODE_COUNT + 1) / 2`, the number of leaves (R145). -/
def leafCount (nodeCount : BitVec 9) : Nat := (nodeCount.toNat + 1) / 2

/-- `NODE[k]` for k = 0 .. n − 1: the leaves (R129, R145). -/
def leavesOf (node : Vector NodeRec 511) (n : Nat) : List NodeRec :=
  (List.range n).map fun k => nodeAt node (BitVec.ofNat 9 k)

/-- `Σ_{k=0}^{n-1} NODE[k].weight · CODE_LEN[NODE[k].sym]`, exact (R145). -/
def weightedLength (leaves : List NodeRec) (len : Vector (BitVec 8) 256) : Nat :=
  (leaves.map fun r => r.weight.toNat * (codeLenAt len r.sym).toNat).sum

/-- `max_{k=0}^{n-1} CODE_LEN[NODE[k].sym]` (R145). -/
def longestCode (leaves : List NodeRec) (len : Vector (BitVec 8) 256) : Nat :=
  (leaves.map fun r => (codeLenAt len r.sym).toNat).foldl max 0

/-- The registers and the code table as a successful GEN_CODES leaves them (R145). -/
def Block.putCodes (b : Block) : Block :=
  let t := codeTableOf b.node b.root
  let leaves := leavesOf b.node (leafCount b.nodeCount)
  { b with
    codeLen := t.len
    codeVal := t.val
    wlen := BitVec.ofNat 48 (weightedLength leaves t.len)
    maxLen := BitVec.ofNat 8 (longestCode leaves t.len)
    codesValid := true }

/-- `run(GEN_CODES)` (R145). -/
def runGenCodes (b : Block) : Run :=
  if b.treeValid = false then .fail .invalidInput else .ok b.putCodes

/-- `run(READ_CODE s)` (R147): CODEBITSk takes bits `[32k+31 : 32k]` of the code value. -/
def runReadCode (s : Symbol) (b : Block) : Run :=
  if b.codesValid = false then .fail .invalidInput
  else .ok (b.setResults ((codeLenAt b.codeLen s).setWidth 32) 0 0
    (Vector.ofFn fun k => codeWord (codeValAt b.codeVal s) k.val))

/-- GEN_CODES (R145). -/
def execGenCodes (s : State) : Host.Outcome State Fault Refusal := .next (s.complete (runGenCodes s.blk))

/-- READ_CODE s (R147). -/
def execReadCode (sym : Symbol) (s : State) : Host.Outcome State Fault Refusal :=
  .next (s.complete (runReadCode sym s.blk))

end Sys2Proof.Machine
end

