-- ==== Sys2Proof/Machine/Control.lean ====
section
/-! DEFINITION. The control commands NOP and CLEAR, and the illegal word (40_command_interface.md R88 to R90). -/

namespace Sys2Proof.Machine

/-- `run(NOP) := finish(OK)` (R88). -/
def runNop (b : Block) : Run := .ok b

/-- `run(CLEAR)` (R89). Its clearing of ERR_ACC is at acceptance, in `Block.accept` (R83). -/
def runClear (b : Block) : Run := .ok b.clearFreq

/-- `run(Illegal) := finish(ILLEGAL_CMD)` (R90). -/
def runIllegal : Run := .fail .illegalCmd

/-- NOP (R88). -/
def execNop (s : State) : Host.Outcome State Fault Refusal := .next (s.complete (runNop s.blk))

/-- CLEAR (R89). -/
def execClear (s : State) : Host.Outcome State Fault Refusal := .next (s.complete (runClear s.blk))

/-- An illegal command word (R90): a completion like any other, with code 6. -/
def execIllegal (s : State) : Host.Outcome State Fault Refusal := .next (s.complete runIllegal)

end Sys2Proof.Machine
end

