-- ==== Sys2Proof/Machine/Frequency.lean ====
section
/-! DEFINITION. The frequency table commands COUNT_BYTE, SET_FREQ and READ_FREQ (41_frequency_table.md). -/

namespace Sys2Proof.Machine

/-- `run(COUNT_BYTE s)` (R102): fails at 2^32 − 1, so the increment never wraps (R107). -/
def runCountByte (s : Symbol) (b : Block) : Run :=
  if freqAt b.freq s = 0xFFFFFFFF#32 then .fail .countOverflow
  else .ok (b.setFreq s (freqAt b.freq s + 1))

/-- `run(SET_FREQ s)` (R104). -/
def runSetFreq (s : Symbol) (b : Block) : Run := .ok (b.setFreq s (freqOperand b.curArg))

/-- `run(READ_FREQ s)` (R106). -/
def runReadFreq (s : Symbol) (b : Block) : Run :=
  .ok (b.setResults (freqAt b.freq s) 0 0 (Vector.replicate 8 0))

/-- COUNT_BYTE s (R102). -/
def execCountByte (sym : Symbol) (s : State) : Host.Outcome State Fault Refusal :=
  .next (s.complete (runCountByte sym s.blk))

/-- SET_FREQ s (R104). -/
def execSetFreq (sym : Symbol) (s : State) : Host.Outcome State Fault Refusal :=
  .next (s.complete (runSetFreq sym s.blk))

/-- READ_FREQ s (R106). -/
def execReadFreq (sym : Symbol) (s : State) : Host.Outcome State Fault Refusal :=
  .next (s.complete (runReadFreq sym s.blk))

end Sys2Proof.Machine
end

