-- ==== Sys2Proof/Machine/Tree.lean ====
section
/-! DEFINITION. The tree builder: BUILD_TREE and READ_NODE (42_tree_builder.md).

The nodes of one BUILD_TREE are kept as a list in node-store order while the tree is built and then written to the node
store; `NODE[i]`, in the pseudocode of R122, is entry i of that list. Only entries the same run has written are read
(R122), and the completion is atomic (R84), so no host can tell the two apart (R125). -/

namespace Sys2Proof.Machine

/-- `NODE[i].weight`, for an index the same run has written. -/
def weightAt (nodes : List NodeRec) (i : Nat) : Weight := (nodes[i]?.getD NodeRec.zero).weight

/-- The order `i ≺ j` (R11, R118): smaller weight first, and on equal weight the smaller index. Weights are compared as
unsigned numbers, with no subtraction (R117). -/
def precedes (nodes : List NodeRec) (i j : Nat) : Bool :=
  weightAt nodes i < weightAt nodes j || (weightAt nodes i == weightAt nodes j && i < j)

/-- `argmin_≺` of the indices `best :: rest` (R10, R118). -/
def argmin (nodes : List NodeRec) (best : Nat) : List Nat → Nat
  | [] => best
  | i :: rest => argmin nodes (if precedes nodes i best then i else best) rest

/-- What BUILD_TREE works on: the nodes created so far, whose number is `next`, and the working collection ACTIVE (R121,
R122). -/
structure Forest where
  nodes  : List NodeRec
  active : List Nat
  deriving DecidableEq, Repr

/-- The leaf of one (Symbol, frequency) pair: `zext_40(FREQ[s])`, no children (R116, R120, R122). -/
def leafRec (e : Symbol × Word) : NodeRec :=
  { weight := e.2.setWidth 40, isLeaf := true, sym := e.1, left := 0, right := 0 }

/-- The internal node over the first selected a, on the left, and the second selected b, on the right (R116, R119). -/
def innerRec (nodes : List NodeRec) (a b : Nat) : NodeRec :=
  { weight := weightAt nodes a + weightAt nodes b, isLeaf := false, sym := 0,
    left := BitVec.ofNat 9 a, right := BitVec.ofNat 9 b }

/-- One leaf per present symbol, in ascending symbol order, and all of them active (R120, R122). -/
def leafForest (freq : Vector Word 256) : Forest :=
  { nodes := (presentEntries freq).map leafRec, active := List.range (presentEntries freq).length }

/-- One merge round (R122): remove the two least indices, create their parent and make it active. A collection of
fewer than two indices has no round left. -/
def mergeRound (f : Forest) : Forest :=
  match f.active with
  | [] => f
  | i :: rest =>
    let a := argmin f.nodes i rest
    match f.active.erase a with
    | [] => f
    | j :: rest' =>
      let b := argmin f.nodes j rest'
      { nodes := f.nodes ++ [innerRec f.nodes a b],
        active := ((f.active.erase a).erase b) ++ [f.nodes.length] }

/-- The merge rounds; each leaves one index fewer active (R122: n − 1 rounds). -/
def mergeRounds : Nat → Forest → Forest
  | 0, f => f
  | k + 1, f => mergeRounds k (mergeRound f)

/-- The finished tree of a frequency table: n leaves and n − 1 merge rounds (R122, R130). -/
def huffmanForest (freq : Vector Word 256) : Forest :=
  mergeRounds ((presentEntries freq).length - 1) (leafForest freq)

/-- The nodes of the tree, in node-store order (R120). -/
def huffmanNodes (freq : Vector Word 256) : List NodeRec := (huffmanForest freq).nodes

/-- ROOT: the single element of ACTIVE (R122). -/
def huffmanRoot (freq : Vector Word 256) : Nat := (huffmanForest freq).active.headD 0

/-- The registers and the node store as a successful BUILD_TREE leaves them (R122). -/
def Block.putTree (b : Block) : Block :=
  { b with
    node := writeNodesFrom b.node 0 (huffmanNodes b.freq)
    root := BitVec.ofNat 9 (huffmanRoot b.freq)
    nodeCount := BitVec.ofNat 9 (huffmanNodes b.freq).length
    total := weightAt (huffmanNodes b.freq) (huffmanRoot b.freq)
    treeValid := true
    codesValid := false
    wlen := 0
    maxLen := 0 }

/-- `run(BUILD_TREE)` (R122). -/
def runBuildTree (b : Block) : Run :=
  if presentEntries b.freq = [] then .fail .emptyInput else .ok b.putTree

/-- `run(READ_NODE)` (R126): TREE_VALID is checked before the index; both failures give INVALID_INPUT (R171). -/
def runReadNode (b : Block) : Run :=
  if b.treeValid = false then .fail .invalidInput
  else if b.nodeCount ≤ nodeOperand b.curArg then .fail .invalidInput
  else
    let r := nodeAt b.node (nodeOperand b.curArg)
    .ok (b.setResults (r.weight.extractLsb' 0 32) ((r.weight.extractLsb' 32 8).setWidth 32) (nodeInfoWord r)
      (Vector.replicate 8 0))

/-- BUILD_TREE (R122). -/
def execBuildTree (s : State) : Host.Outcome State Fault Refusal := .next (s.complete (runBuildTree s.blk))

/-- READ_NODE (R126). -/
def execReadNode (s : State) : Host.Outcome State Fault Refusal := .next (s.complete (runReadNode s.blk))

end Sys2Proof.Machine
end

