-- ==== Sys2Proof/Machine/Dispatch.lean ====
section
/-! DEFINITION. `exec`: the completion step of a decoded command (40_command_interface.md R84), one meaning per command. -/

namespace Sys2Proof.Machine

def exec (i : Instr) (s : State) : Host.Outcome State Fault Refusal :=
  match i with
  | .nop => Sys2Proof.Machine.execNop s
  | .clear => Sys2Proof.Machine.execClear s
  | .countByte sym => Sys2Proof.Machine.execCountByte sym s
  | .setFreq sym => Sys2Proof.Machine.execSetFreq sym s
  | .readFreq sym => Sys2Proof.Machine.execReadFreq sym s
  | .buildTree => Sys2Proof.Machine.execBuildTree s
  | .readNode => Sys2Proof.Machine.execReadNode s
  | .genCodes => Sys2Proof.Machine.execGenCodes s
  | .readCode sym => Sys2Proof.Machine.execReadCode sym s

end Sys2Proof.Machine
end

