-- ==== Sys2Proof/Machine/Step.lean ====
section
/-! DEFINITION. The step of the machine (40_command_interface.md R91). -/

namespace Sys2Proof.Machine

/-- The engine's completion step (R84): decode `cur_cmd`, then run the command. -/
def engineStep (s : State) : Host.Outcome State Fault Refusal :=
  match decode s.blk.curCmd with
  | .command i => exec i s
  | .illegal _ => execIllegal s

/-- One step (R91): the engine's when it is the engine's turn, else the next one of the outside world. With nothing left
to come and no command in progress the block does nothing (R181, R94). -/
def step (s : State) : Host.Outcome State Fault Refusal :=
  if engineTurn s then engineStep s
  else
    match s.env.inputs with
    | [] => .next s
    | i :: rest => inputStep i rest s

/-- The state in which the command word `w` has just been accepted (R83) and the engine moves next (log entry 4). -/
def State.withFetchWord (s : State) (nbits w : Nat) : State :=
  { blk := s.blk.accept (BitVec.ofNat 32 (w % 2 ^ nbits))
    env := { s.env with resetHeld := false, countdown := 0 } }

end Sys2Proof.Machine
end

