-- ==== Sys2Proof/Machine/HostProgram.lean ====
section
/-! DEFINITION. Host programs: the statements of 30_encoding.md R73 and R74 and their expansion into bus operations. -/

namespace Sys2Proof.Machine

/-- `WR <reg>, <v>` (R72). -/
def wrOp (r : Reg) (v : Word) : HostOp := .wr (regOffset r) 4 v

/-- `RD <reg>` (R72). -/
def rdOp (r : Reg) : HostOp := .rd (regOffset r) 4

/-- `ISSUE <MNEMONIC> [<sym>]` (R74). -/
def issueOp (i : Instr) : HostOp := wrOp .cmd (encode i)

/-- The expansions of R74. -/
def expand : Stmt → List HostOp
  | .wr r v => [wrOp r v]
  | .rd r => [rdOp r]
  | .issue i => [issueOp i]
  | .wait => [.wait]
  | .command i => [issueOp i, .wait]
  | .setFreq s v => [wrOp .arg v, issueOp (.setFreq s), .wait]
  | .readNode i => [wrOp .arg (i.setWidth 32), issueOp .readNode, .wait]
  | .countStr text => text.flatMap fun b => [issueOp (.countByte b), .wait]
  | .expect r _ => [rdOp r]

/-- The bus operations of a program (R72). -/
def expandProgram (p : List Stmt) : List Input := (p.flatMap expand).map .host

/-- The byte value of an ASCII character literal such as 'a' (R73, marked there as general knowledge). -/
def symbolOf (c : Char) : Symbol := BitVec.ofNat 8 c.toNat

end Sys2Proof.Machine
end

