-- ==== Sys2Proof/WellFormed.lean ====
section
/-! DEFINITION. Which terms of the syntax the spec gives a meaning. -/

namespace Sys2Proof

/-- Every command term is well formed: a symbol operand is an 8-bit field of which every value is legal (R64), and the
other commands have no operand. -/
def Instr.wellFormed : Instr → Bool
  | .nop => true
  | .clear => true
  | .countByte _ => true
  | .setFreq _ => true
  | .readFreq _ => true
  | .buildTree => true
  | .readNode => true
  | .genCodes => true
  | .readCode _ => true

/-- R50: an access is defined only when it is 32 bits wide, aligned, and inside 0x00..0x7C. -/
def wellFormedAccess (off bytes : Nat) : Bool :=
  bytes == 4 && off % 4 == 0 && decide (off ≤ 0x7C)

/-- A host operation with a meaning (R50, R72). -/
def HostOp.wellFormed : HostOp → Bool
  | .rd off bytes => wellFormedAccess off bytes
  | .wr off bytes _ => wellFormedAccess off bytes
  | .wait => true

/-- The inputs a model gives a meaning (R50, R185): no undefined access, and no access while reset is held. `held` says
whether reset is held when the first input comes. -/
def wellFormedInputs : Bool → List Input → Bool
  | _, [] => true
  | held, .host op :: rest => !held && op.wellFormed && wellFormedInputs held rest
  | _, .resetOn :: rest => wellFormedInputs true rest
  | _, .resetOff :: rest => wellFormedInputs false rest

end Sys2Proof
end

