-- ==== Sys2Proof/Safety.lean ====
section
/-! DEFINITION. The terms claims are stated in: the invariants of R36, a safe run, the end of a run (R94), what a tree and
a code table are (R122, R141), and what a host can tell apart. -/

namespace Sys2Proof.Machine

/-- "the node store holds the tree that BUILD_TREE gives for the current FREQ" (R36.4), with the registers that go with
TREE_VALID (R28). -/
structure Block.HoldsTree (b : Block) : Prop where
  present   : presentEntries b.freq ≠ []
  entries   : ∀ i, i < (huffmanNodes b.freq).length → b.node[i]? = (huffmanNodes b.freq)[i]?
  root      : b.root = BitVec.ofNat 9 (huffmanRoot b.freq)
  nodeCount : b.nodeCount = BitVec.ofNat 9 (huffmanNodes b.freq).length
  total     : b.total = weightAt (huffmanNodes b.freq) (huffmanRoot b.freq)
  odd       : b.nodeCount.toNat + 1 = 2 * (nsym b.freq).toNat

/-- "they hold the code table of the current tree" (R32), with the registers that go with CODES_VALID (R28): writing the
code table again would change nothing. -/
def Block.HoldsCodes (b : Block) : Prop := b.putCodes = b

/-- The invariants of R36, and the codes ERR may hold (R23). They are required in both phases: only a completion or a
reset changes what they speak of. -/
structure Block.Inv (b : Block) : Prop where
  codesTree  : b.codesValid = true → b.treeValid = true
  noTree     : b.treeValid = false → b.root = 0 ∧ b.nodeCount = 0 ∧ b.total = 0
  noCodes    : b.codesValid = false → b.wlen = 0 ∧ b.maxLen = 0
  holdsTree  : b.treeValid = true → b.HoldsTree
  holdsCodes : b.codesValid = true → b.HoldsCodes
  errCode    : b.err = 0 ∨ b.err = 1 ∨ b.err = 2 ∨ b.err = 4 ∨ b.err = 6
  accBits    : b.errAcc.getLsbD 0 = false ∧ b.errAcc.getLsbD 3 = false

/-- A step that has a meaning. -/
def safeStep (s : State) : Bool :=
  match step s with
  | .next _ => true
  | .fault _ => false
  | .refused _ => false

/-- "A run of a host program has ended when the host has performed its last bus operation and `phase = Idle`" (R94).
DEDUCED (log entry 16), safe: only bus operations are counted, so an edge of the reset input still to come does not keep
the run open. -/
def runEnded (s : State) : Bool := s.env.inputs.all (fun i => !i.isHostOp) && s.blk.phase == .idle

/-- "The observation of a run is the sequence of values its `RD` operations returned, together with the final state"
(R94). -/
def observation (s : State) : List Word × Block := (s.env.reads, s.blk)

/-- The completions of a list of commands, one after the other. -/
def execAll : List Instr → State → Host.Outcome State Fault Refusal
  | [], s => .next s
  | i :: rest, s =>
    match exec i s with
    | .next t => execAll rest t
    | .fault f => .fault f
    | .refused r => .refused r

/-- It is the host's turn, reset is not held, and its next operation is `op`, with `rest` after it. -/
def hostTurn (s : State) (op : HostOp) (rest : List Input) : Prop :=
  engineTurn s = false ∧ s.env.resetHeld = false ∧ s.env.inputs = .host op :: rest

/-- Node-store entry k. -/
def Block.nodeN (b : Block) (k : Nat) : NodeRec := nodeAt b.node (BitVec.ofNat 9 k)

/-- The order ≺ on the indices of the node store (R11). -/
def Block.nodeBefore (b : Block) (i j : Nat) : Prop :=
  (b.nodeN i).weight < (b.nodeN j).weight ∨ ((b.nodeN i).weight = (b.nodeN j).weight ∧ i < j)

/-- Index i is still in the working collection when internal node j is made: it exists, and no internal node made before
has it as a child (R121, R122). -/
def Block.activeAt (b : Block) (n j i : Nat) : Prop :=
  i < j ∧ ∀ k, n ≤ k → k < j → (b.nodeN k).left.toNat ≠ i ∧ (b.nodeN k).right.toNat ≠ i

/-- What R116 to R122 ask of the node store and its registers, said of the store itself and not of how it is made: the
leaves first, in ascending symbol order; then every internal node over the ≺-least of the indices still active, on the
left, and the next ≺-least, on the right. -/
structure Block.IsHuffmanTree (b : Block) : Prop where
  root      : b.root.toNat + 2 = 2 * (presentSymbols b.freq).length
  nodeCount : b.nodeCount.toNat + 1 = 2 * (presentSymbols b.freq).length
  total     : b.total = (b.nodeN b.root.toNat).weight
  leaves    : ∀ k s, (presentSymbols b.freq)[k]? = some s →
    b.nodeN k = { weight := (freqAt b.freq s).setWidth 40, isLeaf := true, sym := s, left := 0, right := 0 }
  inner     : ∀ j, (presentSymbols b.freq).length ≤ j → j < b.nodeCount.toNat →
    (b.nodeN j).isLeaf = false ∧ (b.nodeN j).sym = 0 ∧
    (b.nodeN j).weight = (b.nodeN (b.nodeN j).left.toNat).weight + (b.nodeN (b.nodeN j).right.toNat).weight
  selected  : ∀ j, (presentSymbols b.freq).length ≤ j → j < b.nodeCount.toNat →
    b.activeAt (presentSymbols b.freq).length j (b.nodeN j).left.toNat ∧
    b.activeAt (presentSymbols b.freq).length j (b.nodeN j).right.toNat ∧
    b.nodeBefore (b.nodeN j).left.toNat (b.nodeN j).right.toNat ∧
    ∀ i, b.activeAt (presentSymbols b.freq).length j i → i ≠ (b.nodeN j).left.toNat → i ≠ (b.nodeN j).right.toNat →
      b.nodeBefore (b.nodeN j).right.toNat i

/-- The bit string the code table holds for a symbol, first edge first (R12, R142). -/
def Block.codeOf (b : Block) (s : Symbol) : List Bool :=
  (List.range (codeLenAt b.codeLen s).toNat).map fun k =>
    (codeValAt b.codeVal s).getLsbD ((codeLenAt b.codeLen s).toNat - 1 - k)

/-- The node reached from node j along a path: 0 is an edge to the left child, 1 to the right (R12, R141). -/
def Block.follow (b : Block) : NodeIdx → List Bool → NodeIdx
  | j, [] => j
  | j, bit :: rest => b.follow (if bit then (nodeAt b.node j).right else (nodeAt b.node j).left) rest

/-- A path whose every node but the last is internal and whose last node is the leaf of s: "the sequence of edges from
ROOT to the leaf of s" (R141). -/
def Block.leadsToLeaf (b : Block) (path : List Bool) (s : Symbol) : Prop :=
  (∀ k, k < path.length → (nodeAt b.node (b.follow b.root (path.take k))).isLeaf = false) ∧
  (nodeAt b.node (b.follow b.root path)).isLeaf = true ∧ (nodeAt b.node (b.follow b.root path)).sym = s

/-- A prefix-free code for the present symbols (R13, R149). -/
def prefixFree (freq : Vector Word 256) (code : Symbol → List Bool) : Prop :=
  ∀ s, s ∈ presentSymbols freq → ∀ t, t ∈ presentSymbols freq → s ≠ t → ¬ (code s <+: code t)

/-- `Σ_s FREQ[s]` (R28, R128). -/
def totalFreq (freq : Vector Word 256) : Nat := ((presentSymbols freq).map fun s => (freqAt freq s).toNat).sum

/-- `Σ_s FREQ[s] · length(code(s))` over the present symbols (R28, R133). -/
def codeCost (freq : Vector Word 256) (code : Symbol → List Bool) : Nat :=
  ((presentSymbols freq).map fun s => (freqAt freq s).toNat * (code s).length).sum

/-- Two blocks no rule lets a host tell apart: they agree on all that R15 names but for what R37 and R31 leave unspecified
(`cur_cmd` and `cur_arg` while Idle, NODE at NODE_COUNT and above, the code table while CODES_VALID = 0). -/
structure Block.SameToHost (a b : Block) : Prop where
  phase      : a.phase = b.phase
  command    : a.phase = .busy → a.curCmd = b.curCmd ∧ a.curArg = b.curArg
  arg        : a.arg = b.arg
  valid      : a.treeValid = b.treeValid ∧ a.codesValid = b.codesValid
  errors     : a.err = b.err ∧ a.errAcc = b.errAcc
  tree       : a.root = b.root ∧ a.nodeCount = b.nodeCount ∧ a.total = b.total
  lengths    : a.wlen = b.wlen ∧ a.maxLen = b.maxLen
  results    : a.result0 = b.result0 ∧ a.result1 = b.result1 ∧ a.nodeInfo = b.nodeInfo ∧ a.codeBits = b.codeBits
  freq       : a.freq = b.freq
  nodes      : ∀ i : NodeIdx, i < a.nodeCount → nodeAt a.node i = nodeAt b.node i
  codes      : a.codesValid = true → a.codeLen = b.codeLen ∧ a.codeVal = b.codeVal

end Sys2Proof.Machine
end

