-- ==== Sys2Proof/Certificates/Slice0/Obligations.lean ====
section
/-! DEFINITION. The statements for the provers. They state; nothing here is proved. -/

open Sys2Proof Sys2Proof.Machine

/-! ### Encoding -/

/-- R75: the words of the spec's own table, each with the command it stands for. -/
def Obligations.SpecWordsDecode : Prop :=
  decode 0x00000000#32 = .command .nop ∧
  decode 0x00000001#32 = .command .clear ∧
  decode 0x00006102#32 = .command (.countByte 0x61#8) ∧
  decode 0x00006202#32 = .command (.countByte 0x62#8) ∧
  decode 0x00000002#32 = .command (.countByte 0x00#8) ∧
  decode 0x0000FF02#32 = .command (.countByte 0xFF#8) ∧
  decode 0x00006303#32 = .command (.setFreq 0x63#8) ∧
  decode 0x00006104#32 = .command (.readFreq 0x61#8) ∧
  decode 0x00000010#32 = .command .buildTree ∧
  decode 0x00000011#32 = .command .readNode ∧
  decode 0x00000020#32 = .command .genCodes ∧
  decode 0x00006121#32 = .command (.readCode 0x61#8) ∧
  decode 0x00007221#32 = .command (.readCode 0x72#8) ∧
  decode 0x00000005#32 = .illegal (.unassignedOpcode 0x05#8) ∧
  decode 0x00010002#32 = .illegal (.reservedBits 0x0001#16)

/-- R63, R66, R67: the word of a well-formed command decodes to that command, and a word that decodes to it is that
word, but for the SYM bits of a command that ignores them. -/
def Obligations.DecodeEncodeRoundTrip : Prop :=
  ∀ i : Instr, i.wellFormed = true →
    decode (encode i) = .command i ∧
    ∀ w : Word, decode w = .command i → w = encode i ∨ (i.sym? = none ∧ ∃ sym : Symbol, w = 0#16 ++ sym ++ i.opcode)

/-- R66: "A word w selects mnemonic m exactly when (w & 0xFFFF00FF) = OP(m)", with the operand of R64 and R67. -/
def Obligations.MaskedWordSelectsCommand : Prop :=
  ∀ w : Word,
    (w &&& 0xFFFF00FF#32 = 0x00#32 ↔ decode w = .command .nop) ∧
    (w &&& 0xFFFF00FF#32 = 0x01#32 ↔ decode w = .command .clear) ∧
    (w &&& 0xFFFF00FF#32 = 0x02#32 ↔ decode w = .command (.countByte (w.extractLsb' 8 8))) ∧
    (w &&& 0xFFFF00FF#32 = 0x03#32 ↔ decode w = .command (.setFreq (w.extractLsb' 8 8))) ∧
    (w &&& 0xFFFF00FF#32 = 0x04#32 ↔ decode w = .command (.readFreq (w.extractLsb' 8 8))) ∧
    (w &&& 0xFFFF00FF#32 = 0x10#32 ↔ decode w = .command .buildTree) ∧
    (w &&& 0xFFFF00FF#32 = 0x11#32 ↔ decode w = .command .readNode) ∧
    (w &&& 0xFFFF00FF#32 = 0x20#32 ↔ decode w = .command .genCodes) ∧
    (w &&& 0xFFFF00FF#32 = 0x21#32 ↔ decode w = .command (.readCode (w.extractLsb' 8 8)))

/-- R68, R69, R90: a word with a reserved bit set or an unassigned opcode is illegal; it is accepted like any command, does
not clear ERR_ACC, and its completion writes ERR = 6 and ERR_ACC[6] and nothing else. -/
def Obligations.IllegalWordFailsWithCode6 : Prop :=
  ∀ (s : State) (w : Word) (rest : List Input),
    (w.extractLsb' 16 16 ≠ 0#16 ∨
      w.extractLsb' 0 8 ∉ [0x00#8, 0x01#8, 0x02#8, 0x03#8, 0x04#8, 0x10#8, 0x11#8, 0x20#8, 0x21#8]) →
    (hostTurn s (.wr 0x00 4 w) rest → s.blk.phase = .idle →
      ∃ t, step s = .next t ∧ t.blk = { s.blk with curCmd := w, curArg := s.blk.arg, phase := .busy }) ∧
    (engineTurn s = true → s.blk.curCmd = w →
      step s = .next (s.withBlk { s.blk with err := 6#4, errAcc := s.blk.errAcc ||| 0x40#7, phase := .idle }))

/-! ### The step -/

/-- R84, R91: when the engine moves, the step is the decoded command's; the engine moves when a command is in progress,
reset is not held, and the outside steps before the completion are over or none is left. `withFetchWord` places a word
there (log entries 3 and 4 name what is the model's own in this). -/
def Obligations.StepRunsDecodedCommand : Prop :=
  (∀ s : State, engineTurn s = true ↔
    s.blk.phase = .busy ∧ s.env.resetHeld = false ∧ (s.env.countdown = 0 ∨ s.env.inputs = [])) ∧
  (∀ (s : State) (i : Instr), engineTurn s = true → decode s.blk.curCmd = .command i → step s = exec i s) ∧
  (∀ (s : State) (w : Word) (i : Instr), decode w = .command i →
    step (s.withFetchWord 32 w.toNat) = exec i (s.withFetchWord 32 w.toNat))

/-- R83: what an accepted write to CMD latches. The `env` half is the model's (log entries 3 and 4). -/
def Obligations.AcceptLatchesCommandAndArg : Prop :=
  ∀ (s : State) (v : Word) (rest : List Input), hostTurn s (.wr 0x00 4 v) rest → s.blk.phase = .idle →
    step s = .next
      { blk := { s.blk with
          curCmd := v, curArg := s.blk.arg, phase := .busy,
          errAcc := if decode v = .command .clear then 0#7 else s.blk.errAcc }
        env := { s.env with
          inputs := rest, countdown := Config.latency s.env.accepts, accepts := s.env.accepts + 1 } }

/-- R85: a write to CMD while Busy records BUSY_REJECT and nothing else. The `env` half is the model's (log entries 3 and
4). -/
def Obligations.RejectOnlyRecordsBusyReject : Prop :=
  ∀ (s : State) (v : Word) (rest : List Input), hostTurn s (.wr 0x00 4 v) rest → s.blk.phase = .busy →
    step s = .next
      { blk := { s.blk with errAcc := s.blk.errAcc ||| 0x20#7 }
        env := { s.env with inputs := rest, countdown := s.env.countdown - 1 } }

/-- R35, R82: a write to ARG sets it, in either phase, and a write to any other register but CMD changes nothing. The `env`
half is the model's (log entries 3 and 4). -/
def Obligations.OtherWritesSetArgOrNothing : Prop :=
  ∀ (s : State) (off : Nat) (v : Word) (rest : List Input), hostTurn s (.wr off 4 v) rest →
    off % 4 = 0 → 0x00 < off → off ≤ 0x7C →
    step s = .next
      { blk := if off = 0x04 then { s.blk with arg := v } else s.blk
        env := { s.env with inputs := rest, countdown := s.env.countdown - 1 } }

/-- R16, R19, R25, R27 to R29, R34, R35, R81: what a read while Idle returns, register by register; the block is
unchanged. The `env` half is the model's (log entries 3 and 4). -/
def Obligations.IdleReadReturnsRegister : Prop :=
  ∀ (s : State) (off : Nat) (v : Word) (rest : List Input), hostTurn s (.rd off 4) rest → s.blk.phase = .idle →
    (off, v) ∈
      [(0x00, 0#32), (0x04, s.blk.arg),
       (0x08, 0#15 ++ nsym s.blk.freq ++ s.blk.err ++ 0#1 ++ BitVec.ofBool s.blk.codesValid
          ++ BitVec.ofBool s.blk.treeValid ++ 0#1),
       (0x0C, s.blk.errAcc.setWidth 32), (0x10, s.blk.result0), (0x14, s.blk.result1),
       (0x18, 0#7 ++ s.blk.nodeCount ++ 0#7 ++ s.blk.root),
       (0x1C, s.blk.total.extractLsb' 0 32), (0x20, (s.blk.total.extractLsb' 32 8).setWidth 32),
       (0x24, s.blk.wlen.extractLsb' 0 32), (0x28, (s.blk.wlen.extractLsb' 32 16).setWidth 32),
       (0x2C, s.blk.maxLen.setWidth 32), (0x30, s.blk.nodeInfo), (0x34, 0#32), (0x38, 0#32), (0x3C, 0x48554631#32),
       (0x40, s.blk.codeBits[0]), (0x44, s.blk.codeBits[1]), (0x48, s.blk.codeBits[2]), (0x4C, s.blk.codeBits[3]),
       (0x50, s.blk.codeBits[4]), (0x54, s.blk.codeBits[5]), (0x58, s.blk.codeBits[6]), (0x5C, s.blk.codeBits[7]),
       (0x60, 0#32), (0x64, 0#32), (0x68, 0#32), (0x6C, 0#32), (0x70, 0#32), (0x74, 0#32), (0x78, 0#32), (0x7C, 0#32)] →
    step s = .next
      { blk := s.blk
        env := { s.env with
          inputs := rest, countdown := s.env.countdown - 1, reads := s.env.reads ++ [v] } }

/-- R81, R86: what a read while Busy returns. CMD, ARG, ID and the reserved offsets are defined; STATUS has bit 0 = 1 and
every other bit drawn; the other registers are drawn. Nothing is said of the drawn word (log entry 2). -/
def Obligations.BusyReadIsDrawn : Prop :=
  ∀ (s : State) (off : Nat) (rest : List Input), hostTurn s (.rd off 4) rest → s.blk.phase = .busy →
    off % 4 = 0 → off ≤ 0x7C →
    ∃ t v, step s = .next t ∧ t.blk = s.blk ∧ t.env.reads = s.env.reads ++ [v] ∧
      (off = 0x00 → v = 0#32) ∧ (off = 0x04 → v = s.blk.arg) ∧ (off = 0x3C → v = 0x48554631#32) ∧
      (off = 0x34 ∨ off = 0x38 ∨ 0x60 ≤ off → v = 0#32) ∧
      (off = 0x08 → v = (Config.draw s.env.draws).extractLsb' 1 31 ++ 1#1 ∧ t.env.draws = s.env.draws + 1) ∧
      (0x0C ≤ off ∧ off ≤ 0x30 ∨ 0x40 ≤ off ∧ off ≤ 0x5C →
        v = Config.draw s.env.draws ∧ t.env.draws = s.env.draws + 1)

/-- R50: an access that is not a 32-bit access at a multiple of 4 in 0x00..0x7C is refused, and one that is has a next
state, reset not being held. -/
def Obligations.UndefinedAccessIsRefused : Prop :=
  ∀ (s : State) (off bytes : Nat) (v : Word) (rest : List Input),
    hostTurn s (.rd off bytes) rest ∨ hostTurn s (.wr off bytes v) rest →
    (bytes = 4 ∧ off % 4 = 0 ∧ off ≤ 0x7C → ∃ t, step s = .next t) ∧
    (¬ (bytes = 4 ∧ off % 4 = 0 ∧ off ≤ 0x7C) → step s = .refused .undefinedAccess)

/-- R74: one poll of WAIT. While Idle the loop is over; while Busy it goes on. The `env` half is the model's (log
entries 2 to 4). -/
def Obligations.WaitPollsUntilIdle : Prop :=
  ∀ (s : State) (rest : List Input), hostTurn s .wait rest →
    (s.blk.phase = .idle → ∃ v : Word, v.getLsbD 0 = false ∧ step s = .next
      { blk := s.blk
        env := { s.env with inputs := rest, countdown := s.env.countdown - 1, reads := s.env.reads ++ [v] } }) ∧
    (s.blk.phase = .busy → ∃ v : Word, v.getLsbD 0 = true ∧ step s = .next
      { blk := s.blk
        env := { s.env with
          countdown := s.env.countdown - 1, draws := s.env.draws + 1, reads := s.env.reads ++ [v] } })

/-- R185: applying reset, from any state in which it comes next, gives every piece of state the reset value R37 states, and
abandons a command in progress; every register then reads 0 but ID. The same holds of the model's state after reset. The
reset input being held until released is the model's (log entry 5), and so is nothing said of the unspecified state (log
entry 1). A host access while it is held is refused. -/
def Obligations.ResetGivesResetValues : Prop :=
  (∀ b : Block, (b = State.reset.blk ∨ ∃ (s t : State) (rest : List Input), engineTurn s = false ∧
      s.env.inputs = .resetOn :: rest ∧ step s = .next t ∧ b = t.blk) →
    b.phase = .idle ∧ b.arg = 0 ∧ b.treeValid = false ∧ b.codesValid = false ∧ b.err = 0 ∧ b.errAcc = 0 ∧
    b.root = 0 ∧ b.nodeCount = 0 ∧ b.total = 0 ∧ b.wlen = 0 ∧ b.maxLen = 0 ∧
    b.result0 = 0 ∧ b.result1 = 0 ∧ b.nodeInfo = 0 ∧ (∀ k : Fin 8, b.codeBits[k] = 0) ∧ (∀ k : Fin 256, b.freq[k] = 0) ∧
    ∀ r : Reg, idleWord b r = if r = .id then 0x48554631#32 else 0#32) ∧
  (∀ (s : State) (rest : List Input), engineTurn s = false → s.env.inputs = .resetOn :: rest →
    ∃ t, step s = .next t ∧ t.env.inputs = rest ∧ t.env.resetHeld = true) ∧
  (∀ (s : State) (op : HostOp) (rest : List Input), s.env.resetHeld = true → s.env.inputs = .host op :: rest →
    step s = .refused .accessDuringReset)

/-- R93: an accepted command completes. With only defined accesses to come and no reset among them, the engine's turn comes
after at most `countdown` outside steps, with the command and its operand as latched (log entry 3). -/
def Obligations.EngineTurnComes : Prop :=
  ∀ s : State, s.blk.phase = .busy → s.env.resetHeld = false → wellFormedInputs false s.env.inputs = true →
    Input.resetOn ∉ s.env.inputs →
    ∃ k t, k ≤ s.env.countdown ∧ Sys2Proof.core.run k s = .next t ∧ engineTurn t = true ∧
      t.blk.curCmd = s.blk.curCmd ∧ t.blk.curArg = s.blk.curArg

/-- R50, R170, R185: a program of defined accesses, none of them while reset is held, never stops, and what is left of it is
again such a program. -/
def Obligations.DefinedProgramNeverStops : Prop :=
  ∀ s : State, wellFormedInputs s.env.resetHeld s.env.inputs = true →
    ∃ t, step s = .next t ∧ wellFormedInputs t.env.resetHeld t.env.inputs = true

/-! ### The commands: effect and frame. Each equation gives the whole next state. -/

/-- R88. -/
def Obligations.NopClearsErrOnly : Prop :=
  ∀ s : State, exec .nop s = .next (s.withBlk { s.blk with err := 0#4, phase := .idle })

/-- R89: CLEAR's completion; its clearing of ERR_ACC is at acceptance. -/
def Obligations.ClearEmptiesTable : Prop :=
  (∀ s : State, exec .clear s = .next (s.withBlk
    { s.blk with
      freq := Vector.replicate 256 0#32, treeValid := false, codesValid := false, root := 0, nodeCount := 0, total := 0,
      wlen := 0, maxLen := 0, err := 0#4, phase := .idle })) ∧
  (∀ (s : State) (sym : Symbol) (rest : List Input), hostTurn s (.wr 0x00 4 (0#16 ++ sym ++ 0x01#8)) rest →
    s.blk.phase = .idle → ∃ t, step s = .next t ∧ t.blk.errAcc = 0#7)

/-- R102: COUNT_BYTE below the largest count. -/
def Obligations.CountByteIncrements : Prop :=
  ∀ (s : State) (sym : Symbol), freqAt s.blk.freq sym ≠ 0xFFFFFFFF#32 →
    exec (.countByte sym) s = .next (s.withBlk
      { s.blk with
        freq := s.blk.freq.set sym.toNat (freqAt s.blk.freq sym + 1#32) sym.isLt,
        treeValid := false, codesValid := false, root := 0, nodeCount := 0, total := 0, wlen := 0, maxLen := 0,
        err := 0#4, phase := .idle }) ∧
    (freqAt s.blk.freq sym + 1#32).toNat = (freqAt s.blk.freq sym).toNat + 1

/-- R102, R168: COUNT_BYTE at the largest count. -/
def Obligations.CountByteOverflowFails : Prop :=
  ∀ (s : State) (sym : Symbol), freqAt s.blk.freq sym = 0xFFFFFFFF#32 →
    exec (.countByte sym) s = .next (s.withBlk
      { s.blk with err := 4#4, errAcc := s.blk.errAcc ||| 0x10#7, phase := .idle })

/-- R104, R65: SET_FREQ loads all 32 bits of the latched operand. -/
def Obligations.SetFreqLoadsOperand : Prop :=
  ∀ (s : State) (sym : Symbol), exec (.setFreq sym) s = .next (s.withBlk
    { s.blk with
      freq := s.blk.freq.set sym.toNat s.blk.curArg sym.isLt,
      treeValid := false, codesValid := false, root := 0, nodeCount := 0, total := 0, wlen := 0, maxLen := 0,
      err := 0#4, phase := .idle })

/-- R106, R29: READ_FREQ writes all eleven result words. -/
def Obligations.ReadFreqReturnsCount : Prop :=
  ∀ (s : State) (sym : Symbol), exec (.readFreq sym) s = .next (s.withBlk
    { s.blk with
      result0 := freqAt s.blk.freq sym, result1 := 0#32, nodeInfo := 0#32, codeBits := Vector.replicate 8 0#32,
      err := 0#4, phase := .idle })

/-- R108, R122: BUILD_TREE on an empty table. -/
def Obligations.BuildTreeEmptyTableFails : Prop :=
  ∀ s : State, (∀ sym : Symbol, freqAt s.blk.freq sym = 0#32) →
    exec .buildTree s = .next (s.withBlk { s.blk with err := 1#4, errAcc := s.blk.errAcc ||| 0x02#7, phase := .idle })

/-- R116 to R122: BUILD_TREE on a table with a present symbol completes, and the node store then holds the Huffman tree of
FREQ as those rules describe it, entry by entry; entries at NODE_COUNT and above (R122; R31 leaves what they hold
unspecified, log entry 7), and all other state, are as before. -/
def Obligations.BuildTreeMeetsItsRules : Prop :=
  ∀ (s : State) (sym : Symbol), freqAt s.blk.freq sym ≠ 0#32 →
    ∃ t, exec .buildTree s = .next t ∧ t.blk.IsHuffmanTree ∧
      (∀ i : NodeIdx, t.blk.nodeCount ≤ i → nodeAt t.blk.node i = nodeAt s.blk.node i) ∧
      t = s.withBlk
        { s.blk with
          node := t.blk.node, root := t.blk.root, nodeCount := t.blk.nodeCount, total := t.blk.total,
          treeValid := true, codesValid := false, wlen := 0, maxLen := 0, err := 0#4, phase := .idle }

/-- R126, R29, R65: READ_NODE of an entry of the tree. -/
def Obligations.ReadNodeReturnsRecord : Prop :=
  ∀ s : State, s.blk.treeValid = true → s.blk.curArg.extractLsb' 0 9 < s.blk.nodeCount →
    exec .readNode s = .next (s.withBlk
      { s.blk with
        result0 := (nodeAt s.blk.node (s.blk.curArg.extractLsb' 0 9)).weight.extractLsb' 0 32,
        result1 := ((nodeAt s.blk.node (s.blk.curArg.extractLsb' 0 9)).weight.extractLsb' 32 8).setWidth 32,
        nodeInfo := 0#5 ++ BitVec.ofBool (nodeAt s.blk.node (s.blk.curArg.extractLsb' 0 9)).isLeaf
          ++ (nodeAt s.blk.node (s.blk.curArg.extractLsb' 0 9)).sym
          ++ (nodeAt s.blk.node (s.blk.curArg.extractLsb' 0 9)).right
          ++ (nodeAt s.blk.node (s.blk.curArg.extractLsb' 0 9)).left,
        codeBits := Vector.replicate 8 0#32, err := 0#4, phase := .idle })

/-- R126: READ_NODE without a tree, or past NODE_COUNT. -/
def Obligations.ReadNodeOutsideTreeFails : Prop :=
  ∀ s : State, s.blk.treeValid = false ∨ s.blk.nodeCount ≤ s.blk.curArg.extractLsb' 0 9 →
    exec .readNode s = .next (s.withBlk { s.blk with err := 2#4, errAcc := s.blk.errAcc ||| 0x04#7, phase := .idle })

/-- R140, R145: GEN_CODES without a tree. -/
def Obligations.GenCodesWithoutTreeFails : Prop :=
  ∀ s : State, s.blk.treeValid = false →
    exec .genCodes s = .next (s.withBlk { s.blk with err := 2#4, errAcc := s.blk.errAcc ||| 0x04#7, phase := .idle })

/-- R145: GEN_CODES with TREE_VALID = 1 completes, and writes nothing but the code table, WLEN, MAXLEN, CODES_VALID, ERR
and the phase. -/
def Obligations.GenCodesFrame : Prop :=
  ∀ s : State, s.blk.treeValid = true →
    ∃ t, exec .genCodes s = .next t ∧
      t = s.withBlk
        { s.blk with
          codeLen := t.blk.codeLen, codeVal := t.blk.codeVal, wlen := t.blk.wlen, maxLen := t.blk.maxLen,
          codesValid := true, err := 0#4, phase := .idle }

/-- R141 to R146, R28: the code GEN_CODES gives a present symbol is the path from ROOT to its leaf, or "0" when the tree is
one leaf; an absent symbol has length 0 and value 0; WLEN and MAXLEN are exact. The invariant rules out a TREE_VALID = 1
with no tree in the store, which no rule reaches. -/
def Obligations.GenCodesGivesPaths : Prop :=
  ∀ s : State, s.blk.Inv → s.blk.treeValid = true →
    ∃ t, exec .genCodes s = .next t ∧
      (∀ sym : Symbol, freqAt s.blk.freq sym ≠ 0#32 →
        (t.blk.nodeCount.toNat = 1 → t.blk.codeOf sym = [false]) ∧
        (t.blk.nodeCount.toNat ≠ 1 → t.blk.leadsToLeaf (t.blk.codeOf sym) sym) ∧
        (codeLenAt t.blk.codeLen sym).toNat ≤ t.blk.maxLen.toNat) ∧
      (∀ sym : Symbol, freqAt s.blk.freq sym = 0#32 →
        codeLenAt t.blk.codeLen sym = 0#8 ∧ codeValAt t.blk.codeVal sym = 0#256) ∧
      t.blk.wlen.toNat = codeCost s.blk.freq t.blk.codeOf ∧
      (∃ sym : Symbol, freqAt s.blk.freq sym ≠ 0#32 ∧ (codeLenAt t.blk.codeLen sym).toNat = t.blk.maxLen.toNat)

/-- R147, R29: READ_CODE with a code table. -/
def Obligations.ReadCodeReturnsCode : Prop :=
  ∀ (s : State) (sym : Symbol), s.blk.codesValid = true →
    exec (.readCode sym) s = .next (s.withBlk
      { s.blk with
        result0 := (codeLenAt s.blk.codeLen sym).setWidth 32, result1 := 0#32, nodeInfo := 0#32,
        codeBits := #v[(codeValAt s.blk.codeVal sym).extractLsb' 0 32, (codeValAt s.blk.codeVal sym).extractLsb' 32 32,
          (codeValAt s.blk.codeVal sym).extractLsb' 64 32, (codeValAt s.blk.codeVal sym).extractLsb' 96 32,
          (codeValAt s.blk.codeVal sym).extractLsb' 128 32, (codeValAt s.blk.codeVal sym).extractLsb' 160 32,
          (codeValAt s.blk.codeVal sym).extractLsb' 192 32, (codeValAt s.blk.codeVal sym).extractLsb' 224 32],
        err := 0#4, phase := .idle })

/-- R147: READ_CODE without a code table. -/
def Obligations.ReadCodeWithoutCodesFails : Prop :=
  ∀ (s : State) (sym : Symbol), s.blk.codesValid = false →
    exec (.readCode sym) s = .next (s.withBlk
      { s.blk with err := 2#4, errAcc := s.blk.errAcc ||| 0x04#7, phase := .idle })

/-! ### Whole-machine rules -/

/-- R24: NSYM counts the nonzero entries. -/
def Obligations.NsymCountsNonzeroEntries : Prop :=
  ∀ freq : Vector Word 256, (nsym freq).toNat = ((List.finRange 256).filter fun k => decide (freq[k] ≠ 0#32)).length

/-- R168: a command that finishes with a nonzero code, an illegal word among them, changes no state other than ERR,
ERR_ACC and the phase. -/
def Obligations.FailureIsAtomic : Prop :=
  (∀ (i : Instr) (s t : State), exec i s = .next t → t.blk.err ≠ 0#4 →
    t = s.withBlk { s.blk with err := t.blk.err, errAcc := t.blk.errAcc, phase := .idle }) ∧
  (∀ s t : State, engineTurn s = true → step s = .next t → t.blk.err ≠ 0#4 →
    t = s.withBlk { s.blk with err := t.blk.err, errAcc := t.blk.errAcc, phase := .idle })

/-- R38: what each command, an illegal word and a rejected write leave in TREE_VALID, CODES_VALID and ERR. -/
def Obligations.FlagsSummary : Prop :=
  (∀ (s t : State) (why : Illegal), engineTurn s = true → decode s.blk.curCmd = .illegal why → step s = .next t →
    (t.blk.treeValid, t.blk.codesValid, t.blk.err) = (s.blk.treeValid, s.blk.codesValid, 6#4)) ∧
  (∀ (s t : State) (v : Word) (rest : List Input), hostTurn s (.wr 0x00 4 v) rest → s.blk.phase = .busy →
    step s = .next t →
    (t.blk.treeValid, t.blk.codesValid, t.blk.err) = (s.blk.treeValid, s.blk.codesValid, s.blk.err)) ∧
  ∀ (i : Instr) (s t : State), exec i s = .next t →
    (t.blk.treeValid, t.blk.codesValid, t.blk.err) =
      match i with
      | .nop => (s.blk.treeValid, s.blk.codesValid, 0#4)
      | .clear => (false, false, 0#4)
      | .countByte sym =>
        if freqAt s.blk.freq sym = 0xFFFFFFFF#32 then (s.blk.treeValid, s.blk.codesValid, 4#4) else (false, false, 0#4)
      | .setFreq _ => (false, false, 0#4)
      | .readFreq _ => (s.blk.treeValid, s.blk.codesValid, 0#4)
      | .buildTree =>
        if (nsym s.blk.freq) = 0#9 then (s.blk.treeValid, s.blk.codesValid, 1#4) else (true, false, 0#4)
      | .readNode =>
        if s.blk.treeValid = false ∨ s.blk.nodeCount ≤ s.blk.curArg.extractLsb' 0 9
        then (s.blk.treeValid, s.blk.codesValid, 2#4) else (s.blk.treeValid, s.blk.codesValid, 0#4)
      | .genCodes =>
        if s.blk.treeValid = false then (s.blk.treeValid, s.blk.codesValid, 2#4) else (true, true, 0#4)
      | .readCode _ =>
        if s.blk.codesValid = false then (s.blk.treeValid, s.blk.codesValid, 2#4)
        else (s.blk.treeValid, s.blk.codesValid, 0#4)

/-- R25, R167: no step clears an ERR_ACC bit but a reset and the acceptance of a CLEAR. -/
def Obligations.ErrAccIsSticky : Prop :=
  ∀ (s t : State) (k : Nat), step s = .next t → s.blk.errAcc.getLsbD k = true →
    t.blk.errAcc.getLsbD k = true ∨
    (engineTurn s = false ∧ ∃ rest, s.env.inputs = .resetOn :: rest) ∨
    (s.blk.phase = .idle ∧ ∃ v rest, hostTurn s (.wr 0x00 4 v) rest ∧ decode v = .command .clear)

/-- R30: only COUNT_BYTE, SET_FREQ, CLEAR and reset write FREQ, and a write to FREQ leaves no tree and no codes valid (R100,
R60). -/
def Obligations.OnlyTableCommandsWriteFreq : Prop :=
  ∀ s t : State, step s = .next t → t.blk.freq ≠ s.blk.freq →
    (t.blk.treeValid = false ∧ t.blk.codesValid = false) ∧
    ((engineTurn s = false ∧ ∃ rest, s.env.inputs = .resetOn :: rest) ∨
      (engineTurn s = true ∧ (decode s.blk.curCmd = .command .clear ∨
        ∃ sym, decode s.blk.curCmd = .command (.countByte sym) ∨ decode s.blk.curCmd = .command (.setFreq sym))))

/-- R31, R32: only BUILD_TREE writes the node store and only GEN_CODES the code table; what a reset leaves in them is
unspecified (log entry 1). -/
def Obligations.OnlyBuildersWriteTreeAndCodes : Prop :=
  ∀ s t : State, step s = .next t →
    (t.blk.node ≠ s.blk.node →
      (engineTurn s = false ∧ ∃ rest, s.env.inputs = .resetOn :: rest) ∨
      (engineTurn s = true ∧ decode s.blk.curCmd = .command .buildTree)) ∧
    (t.blk.codeLen ≠ s.blk.codeLen ∨ t.blk.codeVal ≠ s.blk.codeVal →
      (engineTurn s = false ∧ ∃ rest, s.env.inputs = .resetOn :: rest) ∨
      (engineTurn s = true ∧ decode s.blk.curCmd = .command .genCodes))

/-- R29: only a successful READ_FREQ, READ_NODE or READ_CODE, and reset, write the eleven result words. -/
def Obligations.OnlyReadsWriteResults : Prop :=
  ∀ s t : State, step s = .next t →
    (t.blk.result0, t.blk.result1, t.blk.nodeInfo, t.blk.codeBits) ≠
      (s.blk.result0, s.blk.result1, s.blk.nodeInfo, s.blk.codeBits) →
    (engineTurn s = false ∧ ∃ rest, s.env.inputs = .resetOn :: rest) ∨
    (engineTurn s = true ∧ t.blk.err = 0#4 ∧ (decode s.blk.curCmd = .command .readNode ∨
      ∃ sym, decode s.blk.curCmd = .command (.readFreq sym) ∨ decode s.blk.curCmd = .command (.readCode sym)))

/-- R17, R20, R26: a step that is neither a completion nor a reset changes nothing of the block but the phase, `cur_cmd`,
`cur_arg`, ARG and ERR_ACC. -/
def Obligations.HostChangesOnlyCommandState : Prop :=
  ∀ s t : State, step s = .next t → engineTurn s = false → (∀ rest, s.env.inputs ≠ .resetOn :: rest) →
    t.blk = { s.blk with
      phase := t.blk.phase, curCmd := t.blk.curCmd, curArg := t.blk.curArg, arg := t.blk.arg, errAcc := t.blk.errAcc }

/-- R59, R65: no command reads ARG, only `cur_arg`: another value in ARG at the completion changes nothing but ARG. -/
def Obligations.CommandsIgnoreArgRegister : Prop :=
  ∀ (i : Instr) (s t : State) (v : Word), exec i s = .next t →
    exec i (s.withBlk { s.blk with arg := v }) = .next (t.withBlk { t.blk with arg := v })

/-- R60, R193: after a completed CLEAR, COUNT_BYTE or SET_FREQ, and any further commands without a BUILD_TREE, READ_NODE
fails with INVALID_INPUT, and without a BUILD_TREE and a GEN_CODES after it so does READ_CODE of any symbol. -/
def Obligations.StaleDataIsUnreadable : Prop :=
  ∀ (i : Instr) (cs : List Instr) (sym other : Symbol) (s t u : State),
    (i = .clear ∨ i = .setFreq sym ∨ (i = .countByte sym ∧ freqAt s.blk.freq sym ≠ 0xFFFFFFFF#32)) →
    exec i s = .next t → execAll cs t = .next u →
    (Instr.buildTree ∉ cs → exec .readNode u = .next (u.withBlk
      { u.blk with err := 2#4, errAcc := u.blk.errAcc ||| 0x04#7, phase := .idle })) ∧
    (¬ [Instr.buildTree, Instr.genCodes].Sublist cs → exec (.readCode other) u = .next (u.withBlk
      { u.blk with err := 2#4, errAcc := u.blk.errAcc ||| 0x04#7, phase := .idle }))

/-- R103: after a CLEAR and COUNT_BYTEs of which none overflows, FREQ holds the counts, their sum is the number of bytes,
and NSYM is the number of distinct bytes. -/
def Obligations.CountingLaw : Prop :=
  ∀ (bytes : List Symbol) (s : State), (∀ b, bytes.count b < 2 ^ 32) →
    ∃ t, execAll (.clear :: bytes.map .countByte) s = .next t ∧
      (∀ b, (freqAt t.blk.freq b).toNat = bytes.count b) ∧
      totalFreq t.blk.freq = bytes.length ∧
      (nsym t.blk.freq).toNat = bytes.dedup.length

/-! ### Invariants -/

/-- R36, at reset. -/
def Obligations.InvHoldsAtReset : Prop := State.reset.blk.Inv

/-- R36: the invariants between the registers are kept by every step, from every state that has them. -/
def Obligations.StepKeepsInv : Prop :=
  ∀ s t : State, s.blk.Inv → step s = .next t → t.blk.Inv

/-- R31, R37: what reset leaves unspecified is never seen. From two states that agree on all but that, every step gives the
same reads and the same refusals, and states that again agree. -/
def Obligations.UnspecifiedStateIsUnobservable : Prop :=
  ∀ s t : State, s.blk.Inv → t.blk.Inv → s.blk.SameToHost t.blk → s.env = t.env →
    (∃ s' t', step s = .next s' ∧ step t = .next t' ∧ s'.blk.SameToHost t'.blk ∧ s'.env = t'.env) ∨
    (∃ r, step s = .refused r ∧ step t = .refused r)

/-! ### Every tree BUILD_TREE produces (42_tree_builder.md section 3) -/

/-- R127: strict binary structure. -/
def Obligations.TreeIsStrictBinary : Prop :=
  ∀ b : Block, b.Inv → b.treeValid = true →
    (∀ j, (presentSymbols b.freq).length ≤ j → j < b.nodeCount.toNat →
      (b.nodeN j).left.toNat < j ∧ (b.nodeN j).right.toNat < j ∧ (b.nodeN j).left ≠ (b.nodeN j).right) ∧
    (∀ i, i < b.nodeCount.toNat → i ≠ b.root.toNat →
      ∃! j, (presentSymbols b.freq).length ≤ j ∧ j < b.nodeCount.toNat ∧
        ((b.nodeN j).left.toNat = i ∨ (b.nodeN j).right.toNat = i)) ∧
    (∀ j, (presentSymbols b.freq).length ≤ j → j < b.nodeCount.toNat →
      (b.nodeN j).left ≠ b.root ∧ (b.nodeN j).right ≠ b.root)

/-- R128, R117, R7: weights are conserved exactly, and TOTAL is the sum of the frequencies. -/
def Obligations.WeightsAreConserved : Prop :=
  ∀ b : Block, b.Inv → b.treeValid = true →
    (∀ j, (presentSymbols b.freq).length ≤ j → j < b.nodeCount.toNat →
      (b.nodeN j).weight.toNat =
        (b.nodeN (b.nodeN j).left.toNat).weight.toNat + (b.nodeN (b.nodeN j).right.toNat).weight.toNat) ∧
    b.total.toNat = totalFreq b.freq ∧ b.total = (b.nodeN b.root.toNat).weight

/-- R129, R130: n leaves in ascending symbol order, NODE_COUNT = 2n − 1 and ROOT = 2n − 2. -/
def Obligations.LeavesAndNodeCount : Prop :=
  ∀ b : Block, b.Inv → b.treeValid = true →
    ((List.range (presentSymbols b.freq).length).map fun k => (b.nodeN k).sym) = presentSymbols b.freq ∧
    (∀ k, k < b.nodeCount.toNat → ((b.nodeN k).isLeaf = true ↔ k < (presentSymbols b.freq).length)) ∧
    b.nodeCount.toNat + 1 = 2 * (nsym b.freq).toNat ∧ b.root.toNat + 2 = 2 * (nsym b.freq).toNat

/-- R131: merge weights do not decrease. -/
def Obligations.MergeWeightsDoNotDecrease : Prop :=
  ∀ b : Block, b.Inv → b.treeValid = true →
    ∀ j, (presentSymbols b.freq).length ≤ j → j + 1 < b.nodeCount.toNat → (b.nodeN j).weight ≤ (b.nodeN (j + 1)).weight

/-- R132: BUILD_TREE is a function of FREQ alone, in what it writes and in its code. -/
def Obligations.BuildTreeDependsOnFreqOnly : Prop :=
  ∀ s s' t t' : State, s.blk.freq = s'.blk.freq → exec .buildTree s = .next t → exec .buildTree s' = .next t' →
    t.blk.err = t'.blk.err ∧
    (t.blk.err = 0#4 →
      t.blk.root = t'.blk.root ∧ t.blk.nodeCount = t'.blk.nodeCount ∧ t.blk.total = t'.blk.total ∧
      ∀ i : NodeIdx, i < t.blk.nodeCount → nodeAt t.blk.node i = nodeAt t'.blk.node i)

/-- R124: a rebuild writes the same tree and still clears the codes. R122: entries at NODE_COUNT and above are not written,
so the whole node store is as before; R31 leaves what those entries hold unspecified (log entry 7). -/
def Obligations.RebuildKeepsTree : Prop :=
  ∀ s : State, s.blk.Inv → s.blk.treeValid = true →
    exec .buildTree s = .next (s.withBlk
      { s.blk with codesValid := false, wlen := 0, maxLen := 0, err := 0#4, phase := .idle })

/-! ### Every code table GEN_CODES produces (43_code_generator.md section 4) -/

/-- R123, R146: one present symbol gives a tree of one leaf and the code "0". -/
def Obligations.SingleSymbolCode : Prop :=
  ∀ (s t u : State) (sym : Symbol), presentSymbols s.blk.freq = [sym] →
    exec .buildTree s = .next t → exec .genCodes t = .next u →
    u.blk.err = 0#4 ∧ u.blk.root = 0 ∧ u.blk.nodeCount = 1 ∧ u.blk.total.toNat = (freqAt s.blk.freq sym).toNat ∧
    codeLenAt u.blk.codeLen sym = 1#8 ∧ codeValAt u.blk.codeVal sym = 0#256 ∧
    u.blk.wlen.toNat = (freqAt s.blk.freq sym).toNat ∧ u.blk.maxLen = 1#8

/-- R149: the codes are prefix-free. -/
def Obligations.CodesArePrefixFree : Prop :=
  ∀ b : Block, b.Inv → b.codesValid = true → prefixFree b.freq b.codeOf

/-- R150: length bounds. -/
def Obligations.CodeLengthBounds : Prop :=
  ∀ b : Block, b.Inv → b.codesValid = true → ∀ sym : Symbol,
    (freqAt b.freq sym ≠ 0#32 → 1 ≤ (codeLenAt b.codeLen sym).toNat) ∧
    (freqAt b.freq sym = 0#32 → codeLenAt b.codeLen sym = 0#8) ∧
    (2 ≤ (presentSymbols b.freq).length → (codeLenAt b.codeLen sym).toNat + 1 ≤ (presentSymbols b.freq).length) ∧
    (codeValAt b.codeVal sym).toNat < 2 ^ (codeLenAt b.codeLen sym).toNat ∧
    (codeValAt b.codeVal sym).getLsbD 255 = false

/-- R151: Kraft equality, scaled by 2^255. -/
def Obligations.KraftEquality : Prop :=
  ∀ b : Block, b.Inv → b.codesValid = true →
    (2 ≤ (presentSymbols b.freq).length →
      ((presentSymbols b.freq).map fun sym => 2 ^ (255 - (codeLenAt b.codeLen sym).toNat)).sum = 2 ^ 255) ∧
    ((presentSymbols b.freq).length = 1 →
      ((presentSymbols b.freq).map fun sym => 2 ^ (255 - (codeLenAt b.codeLen sym).toNat)).sum = 2 ^ 254)

/-- R152: WLEN is the sum of the internal nodes' weights. -/
def Obligations.WlenIsSumOfInternalWeights : Prop :=
  ∀ b : Block, b.Inv → b.codesValid = true →
    (2 ≤ (presentSymbols b.freq).length →
      b.wlen.toNat = ((List.range' (presentSymbols b.freq).length ((presentSymbols b.freq).length - 1)).map fun j =>
        (b.nodeN j).weight.toNat).sum) ∧
    ((presentSymbols b.freq).length = 1 → b.wlen.toNat = b.total.toNat)

/-- R153: GEN_CODES after BUILD_TREE is a function of FREQ alone. -/
def Obligations.CodesDependOnFreqOnly : Prop :=
  ∀ s s' t t' u u' : State, s.blk.freq = s'.blk.freq → exec .buildTree s = .next t → exec .buildTree s' = .next t' →
    t.blk.err = 0#4 → exec .genCodes t = .next u → exec .genCodes t' = .next u' →
    u.blk.codeLen = u'.blk.codeLen ∧ u.blk.codeVal = u'.blk.codeVal ∧ u.blk.wlen = u'.blk.wlen ∧
    u.blk.maxLen = u'.blk.maxLen

/-- R133: Huffman optimality. With at least two present symbols, each code is the path from ROOT to its leaf, so its
length is depth(s), and WLEN, their weighted length, is the least of any prefix-free code for FREQ, which the block's own
code attains. With one present symbol the one code has length 1. -/
def Obligations.CodesAreOptimal : Prop :=
  ∀ b : Block, b.Inv → b.codesValid = true →
    (2 ≤ (presentSymbols b.freq).length →
      (∀ sym : Symbol, freqAt b.freq sym ≠ 0#32 → b.leadsToLeaf (b.codeOf sym) sym) ∧
      prefixFree b.freq b.codeOf ∧ codeCost b.freq b.codeOf = b.wlen.toNat ∧
      ∀ code : Symbol → List Bool, prefixFree b.freq code → b.wlen.toNat ≤ codeCost b.freq code) ∧
    ((presentSymbols b.freq).length = 1 →
      ∀ sym : Symbol, freqAt b.freq sym ≠ 0#32 → (b.codeOf sym).length = 1)
end

