-- ==== Sys2Proof/Laws/State.lean ====
section
/-! SUPPORT. One lemma per field per named update of the state, each true by rfl: later proofs do not unfold a record
update. -/

namespace Sys2Proof.Machine

variable (b : Block) (s : State) (e : Env)

section finish

@[simp] theorem Block.finish_phase (c : ErrCode) : (b.finish c).phase = .idle := rfl
@[simp] theorem Block.finish_curCmd (c : ErrCode) : (b.finish c).curCmd = b.curCmd := rfl
@[simp] theorem Block.finish_curArg (c : ErrCode) : (b.finish c).curArg = b.curArg := rfl
@[simp] theorem Block.finish_arg (c : ErrCode) : (b.finish c).arg = b.arg := rfl
@[simp] theorem Block.finish_treeValid (c : ErrCode) : (b.finish c).treeValid = b.treeValid := rfl
@[simp] theorem Block.finish_codesValid (c : ErrCode) : (b.finish c).codesValid = b.codesValid := rfl
@[simp] theorem Block.finish_err (c : ErrCode) : (b.finish c).err = c.code := rfl
@[simp] theorem Block.finish_errAcc (c : ErrCode) : (b.finish c).errAcc = raiseAcc b.errAcc c := rfl
@[simp] theorem Block.finish_root (c : ErrCode) : (b.finish c).root = b.root := rfl
@[simp] theorem Block.finish_nodeCount (c : ErrCode) : (b.finish c).nodeCount = b.nodeCount := rfl
@[simp] theorem Block.finish_total (c : ErrCode) : (b.finish c).total = b.total := rfl
@[simp] theorem Block.finish_wlen (c : ErrCode) : (b.finish c).wlen = b.wlen := rfl
@[simp] theorem Block.finish_maxLen (c : ErrCode) : (b.finish c).maxLen = b.maxLen := rfl
@[simp] theorem Block.finish_result0 (c : ErrCode) : (b.finish c).result0 = b.result0 := rfl
@[simp] theorem Block.finish_result1 (c : ErrCode) : (b.finish c).result1 = b.result1 := rfl
@[simp] theorem Block.finish_nodeInfo (c : ErrCode) : (b.finish c).nodeInfo = b.nodeInfo := rfl
@[simp] theorem Block.finish_codeBits (c : ErrCode) : (b.finish c).codeBits = b.codeBits := rfl
@[simp] theorem Block.finish_freq (c : ErrCode) : (b.finish c).freq = b.freq := rfl
@[simp] theorem Block.finish_node (c : ErrCode) : (b.finish c).node = b.node := rfl
@[simp] theorem Block.finish_codeLen (c : ErrCode) : (b.finish c).codeLen = b.codeLen := rfl
@[simp] theorem Block.finish_codeVal (c : ErrCode) : (b.finish c).codeVal = b.codeVal := rfl

end finish

section accept

@[simp] theorem Block.accept_phase (v : Word) : (b.accept v).phase = .busy := rfl
@[simp] theorem Block.accept_curCmd (v : Word) : (b.accept v).curCmd = v := rfl
@[simp] theorem Block.accept_curArg (v : Word) : (b.accept v).curArg = b.arg := rfl
@[simp] theorem Block.accept_arg (v : Word) : (b.accept v).arg = b.arg := rfl
@[simp] theorem Block.accept_treeValid (v : Word) : (b.accept v).treeValid = b.treeValid := rfl
@[simp] theorem Block.accept_codesValid (v : Word) : (b.accept v).codesValid = b.codesValid := rfl
@[simp] theorem Block.accept_err (v : Word) : (b.accept v).err = b.err := rfl
@[simp] theorem Block.accept_errAcc (v : Word) :
    (b.accept v).errAcc = if decode v = .command .clear then 0 else b.errAcc := rfl
@[simp] theorem Block.accept_root (v : Word) : (b.accept v).root = b.root := rfl
@[simp] theorem Block.accept_nodeCount (v : Word) : (b.accept v).nodeCount = b.nodeCount := rfl
@[simp] theorem Block.accept_total (v : Word) : (b.accept v).total = b.total := rfl
@[simp] theorem Block.accept_wlen (v : Word) : (b.accept v).wlen = b.wlen := rfl
@[simp] theorem Block.accept_maxLen (v : Word) : (b.accept v).maxLen = b.maxLen := rfl
@[simp] theorem Block.accept_result0 (v : Word) : (b.accept v).result0 = b.result0 := rfl
@[simp] theorem Block.accept_result1 (v : Word) : (b.accept v).result1 = b.result1 := rfl
@[simp] theorem Block.accept_nodeInfo (v : Word) : (b.accept v).nodeInfo = b.nodeInfo := rfl
@[simp] theorem Block.accept_codeBits (v : Word) : (b.accept v).codeBits = b.codeBits := rfl
@[simp] theorem Block.accept_freq (v : Word) : (b.accept v).freq = b.freq := rfl
@[simp] theorem Block.accept_node (v : Word) : (b.accept v).node = b.node := rfl
@[simp] theorem Block.accept_codeLen (v : Word) : (b.accept v).codeLen = b.codeLen := rfl
@[simp] theorem Block.accept_codeVal (v : Word) : (b.accept v).codeVal = b.codeVal := rfl

end accept

section reject

@[simp] theorem Block.reject_phase : (b.reject).phase = b.phase := rfl
@[simp] theorem Block.reject_curCmd : (b.reject).curCmd = b.curCmd := rfl
@[simp] theorem Block.reject_curArg : (b.reject).curArg = b.curArg := rfl
@[simp] theorem Block.reject_arg : (b.reject).arg = b.arg := rfl
@[simp] theorem Block.reject_treeValid : (b.reject).treeValid = b.treeValid := rfl
@[simp] theorem Block.reject_codesValid : (b.reject).codesValid = b.codesValid := rfl
@[simp] theorem Block.reject_err : (b.reject).err = b.err := rfl
@[simp] theorem Block.reject_errAcc : (b.reject).errAcc = raiseAcc b.errAcc .busyReject := rfl
@[simp] theorem Block.reject_root : (b.reject).root = b.root := rfl
@[simp] theorem Block.reject_nodeCount : (b.reject).nodeCount = b.nodeCount := rfl
@[simp] theorem Block.reject_total : (b.reject).total = b.total := rfl
@[simp] theorem Block.reject_wlen : (b.reject).wlen = b.wlen := rfl
@[simp] theorem Block.reject_maxLen : (b.reject).maxLen = b.maxLen := rfl
@[simp] theorem Block.reject_result0 : (b.reject).result0 = b.result0 := rfl
@[simp] theorem Block.reject_result1 : (b.reject).result1 = b.result1 := rfl
@[simp] theorem Block.reject_nodeInfo : (b.reject).nodeInfo = b.nodeInfo := rfl
@[simp] theorem Block.reject_codeBits : (b.reject).codeBits = b.codeBits := rfl
@[simp] theorem Block.reject_freq : (b.reject).freq = b.freq := rfl
@[simp] theorem Block.reject_node : (b.reject).node = b.node := rfl
@[simp] theorem Block.reject_codeLen : (b.reject).codeLen = b.codeLen := rfl
@[simp] theorem Block.reject_codeVal : (b.reject).codeVal = b.codeVal := rfl

end reject

section writeArg

@[simp] theorem Block.writeArg_phase (v : Word) : (b.writeArg v).phase = b.phase := rfl
@[simp] theorem Block.writeArg_curCmd (v : Word) : (b.writeArg v).curCmd = b.curCmd := rfl
@[simp] theorem Block.writeArg_curArg (v : Word) : (b.writeArg v).curArg = b.curArg := rfl
@[simp] theorem Block.writeArg_arg (v : Word) : (b.writeArg v).arg = v := rfl
@[simp] theorem Block.writeArg_treeValid (v : Word) : (b.writeArg v).treeValid = b.treeValid := rfl
@[simp] theorem Block.writeArg_codesValid (v : Word) : (b.writeArg v).codesValid = b.codesValid := rfl
@[simp] theorem Block.writeArg_err (v : Word) : (b.writeArg v).err = b.err := rfl
@[simp] theorem Block.writeArg_errAcc (v : Word) : (b.writeArg v).errAcc = b.errAcc := rfl
@[simp] theorem Block.writeArg_root (v : Word) : (b.writeArg v).root = b.root := rfl
@[simp] theorem Block.writeArg_nodeCount (v : Word) : (b.writeArg v).nodeCount = b.nodeCount := rfl
@[simp] theorem Block.writeArg_total (v : Word) : (b.writeArg v).total = b.total := rfl
@[simp] theorem Block.writeArg_wlen (v : Word) : (b.writeArg v).wlen = b.wlen := rfl
@[simp] theorem Block.writeArg_maxLen (v : Word) : (b.writeArg v).maxLen = b.maxLen := rfl
@[simp] theorem Block.writeArg_result0 (v : Word) : (b.writeArg v).result0 = b.result0 := rfl
@[simp] theorem Block.writeArg_result1 (v : Word) : (b.writeArg v).result1 = b.result1 := rfl
@[simp] theorem Block.writeArg_nodeInfo (v : Word) : (b.writeArg v).nodeInfo = b.nodeInfo := rfl
@[simp] theorem Block.writeArg_codeBits (v : Word) : (b.writeArg v).codeBits = b.codeBits := rfl
@[simp] theorem Block.writeArg_freq (v : Word) : (b.writeArg v).freq = b.freq := rfl
@[simp] theorem Block.writeArg_node (v : Word) : (b.writeArg v).node = b.node := rfl
@[simp] theorem Block.writeArg_codeLen (v : Word) : (b.writeArg v).codeLen = b.codeLen := rfl
@[simp] theorem Block.writeArg_codeVal (v : Word) : (b.writeArg v).codeVal = b.codeVal := rfl

end writeArg

section invalidate

@[simp] theorem Block.invalidate_phase : (b.invalidate).phase = b.phase := rfl
@[simp] theorem Block.invalidate_curCmd : (b.invalidate).curCmd = b.curCmd := rfl
@[simp] theorem Block.invalidate_curArg : (b.invalidate).curArg = b.curArg := rfl
@[simp] theorem Block.invalidate_arg : (b.invalidate).arg = b.arg := rfl
@[simp] theorem Block.invalidate_treeValid : (b.invalidate).treeValid = false := rfl
@[simp] theorem Block.invalidate_codesValid : (b.invalidate).codesValid = false := rfl
@[simp] theorem Block.invalidate_err : (b.invalidate).err = b.err := rfl
@[simp] theorem Block.invalidate_errAcc : (b.invalidate).errAcc = b.errAcc := rfl
@[simp] theorem Block.invalidate_root : (b.invalidate).root = 0 := rfl
@[simp] theorem Block.invalidate_nodeCount : (b.invalidate).nodeCount = 0 := rfl
@[simp] theorem Block.invalidate_total : (b.invalidate).total = 0 := rfl
@[simp] theorem Block.invalidate_wlen : (b.invalidate).wlen = 0 := rfl
@[simp] theorem Block.invalidate_maxLen : (b.invalidate).maxLen = 0 := rfl
@[simp] theorem Block.invalidate_result0 : (b.invalidate).result0 = b.result0 := rfl
@[simp] theorem Block.invalidate_result1 : (b.invalidate).result1 = b.result1 := rfl
@[simp] theorem Block.invalidate_nodeInfo : (b.invalidate).nodeInfo = b.nodeInfo := rfl
@[simp] theorem Block.invalidate_codeBits : (b.invalidate).codeBits = b.codeBits := rfl
@[simp] theorem Block.invalidate_freq : (b.invalidate).freq = b.freq := rfl
@[simp] theorem Block.invalidate_node : (b.invalidate).node = b.node := rfl
@[simp] theorem Block.invalidate_codeLen : (b.invalidate).codeLen = b.codeLen := rfl
@[simp] theorem Block.invalidate_codeVal : (b.invalidate).codeVal = b.codeVal := rfl

end invalidate

section setFreq

@[simp] theorem Block.setFreq_phase (s : Symbol) (v : Word) : (b.setFreq s v).phase = b.phase := rfl
@[simp] theorem Block.setFreq_curCmd (s : Symbol) (v : Word) : (b.setFreq s v).curCmd = b.curCmd := rfl
@[simp] theorem Block.setFreq_curArg (s : Symbol) (v : Word) : (b.setFreq s v).curArg = b.curArg := rfl
@[simp] theorem Block.setFreq_arg (s : Symbol) (v : Word) : (b.setFreq s v).arg = b.arg := rfl
@[simp] theorem Block.setFreq_treeValid (s : Symbol) (v : Word) : (b.setFreq s v).treeValid = false := rfl
@[simp] theorem Block.setFreq_codesValid (s : Symbol) (v : Word) : (b.setFreq s v).codesValid = false := rfl
@[simp] theorem Block.setFreq_err (s : Symbol) (v : Word) : (b.setFreq s v).err = b.err := rfl
@[simp] theorem Block.setFreq_errAcc (s : Symbol) (v : Word) : (b.setFreq s v).errAcc = b.errAcc := rfl
@[simp] theorem Block.setFreq_root (s : Symbol) (v : Word) : (b.setFreq s v).root = 0 := rfl
@[simp] theorem Block.setFreq_nodeCount (s : Symbol) (v : Word) : (b.setFreq s v).nodeCount = 0 := rfl
@[simp] theorem Block.setFreq_total (s : Symbol) (v : Word) : (b.setFreq s v).total = 0 := rfl
@[simp] theorem Block.setFreq_wlen (s : Symbol) (v : Word) : (b.setFreq s v).wlen = 0 := rfl
@[simp] theorem Block.setFreq_maxLen (s : Symbol) (v : Word) : (b.setFreq s v).maxLen = 0 := rfl
@[simp] theorem Block.setFreq_result0 (s : Symbol) (v : Word) : (b.setFreq s v).result0 = b.result0 := rfl
@[simp] theorem Block.setFreq_result1 (s : Symbol) (v : Word) : (b.setFreq s v).result1 = b.result1 := rfl
@[simp] theorem Block.setFreq_nodeInfo (s : Symbol) (v : Word) : (b.setFreq s v).nodeInfo = b.nodeInfo := rfl
@[simp] theorem Block.setFreq_codeBits (s : Symbol) (v : Word) : (b.setFreq s v).codeBits = b.codeBits := rfl
@[simp] theorem Block.setFreq_freq (s : Symbol) (v : Word) : (b.setFreq s v).freq = writeFreq b.freq s v := rfl
@[simp] theorem Block.setFreq_node (s : Symbol) (v : Word) : (b.setFreq s v).node = b.node := rfl
@[simp] theorem Block.setFreq_codeLen (s : Symbol) (v : Word) : (b.setFreq s v).codeLen = b.codeLen := rfl
@[simp] theorem Block.setFreq_codeVal (s : Symbol) (v : Word) : (b.setFreq s v).codeVal = b.codeVal := rfl

end setFreq

section clearFreq

@[simp] theorem Block.clearFreq_phase : (b.clearFreq).phase = b.phase := rfl
@[simp] theorem Block.clearFreq_curCmd : (b.clearFreq).curCmd = b.curCmd := rfl
@[simp] theorem Block.clearFreq_curArg : (b.clearFreq).curArg = b.curArg := rfl
@[simp] theorem Block.clearFreq_arg : (b.clearFreq).arg = b.arg := rfl
@[simp] theorem Block.clearFreq_treeValid : (b.clearFreq).treeValid = false := rfl
@[simp] theorem Block.clearFreq_codesValid : (b.clearFreq).codesValid = false := rfl
@[simp] theorem Block.clearFreq_err : (b.clearFreq).err = b.err := rfl
@[simp] theorem Block.clearFreq_errAcc : (b.clearFreq).errAcc = b.errAcc := rfl
@[simp] theorem Block.clearFreq_root : (b.clearFreq).root = 0 := rfl
@[simp] theorem Block.clearFreq_nodeCount : (b.clearFreq).nodeCount = 0 := rfl
@[simp] theorem Block.clearFreq_total : (b.clearFreq).total = 0 := rfl
@[simp] theorem Block.clearFreq_wlen : (b.clearFreq).wlen = 0 := rfl
@[simp] theorem Block.clearFreq_maxLen : (b.clearFreq).maxLen = 0 := rfl
@[simp] theorem Block.clearFreq_result0 : (b.clearFreq).result0 = b.result0 := rfl
@[simp] theorem Block.clearFreq_result1 : (b.clearFreq).result1 = b.result1 := rfl
@[simp] theorem Block.clearFreq_nodeInfo : (b.clearFreq).nodeInfo = b.nodeInfo := rfl
@[simp] theorem Block.clearFreq_codeBits : (b.clearFreq).codeBits = b.codeBits := rfl
@[simp] theorem Block.clearFreq_freq : (b.clearFreq).freq = Vector.replicate 256 0 := rfl
@[simp] theorem Block.clearFreq_node : (b.clearFreq).node = b.node := rfl
@[simp] theorem Block.clearFreq_codeLen : (b.clearFreq).codeLen = b.codeLen := rfl
@[simp] theorem Block.clearFreq_codeVal : (b.clearFreq).codeVal = b.codeVal := rfl

end clearFreq

section setResults

@[simp] theorem Block.setResults_phase (r0 r1 info : Word) (bits : Vector Word 8) :
    (b.setResults r0 r1 info bits).phase = b.phase := rfl
@[simp] theorem Block.setResults_curCmd (r0 r1 info : Word) (bits : Vector Word 8) :
    (b.setResults r0 r1 info bits).curCmd = b.curCmd := rfl
@[simp] theorem Block.setResults_curArg (r0 r1 info : Word) (bits : Vector Word 8) :
    (b.setResults r0 r1 info bits).curArg = b.curArg := rfl
@[simp] theorem Block.setResults_arg (r0 r1 info : Word) (bits : Vector Word 8) :
    (b.setResults r0 r1 info bits).arg = b.arg := rfl
@[simp] theorem Block.setResults_treeValid (r0 r1 info : Word) (bits : Vector Word 8) :
    (b.setResults r0 r1 info bits).treeValid = b.treeValid := rfl
@[simp] theorem Block.setResults_codesValid (r0 r1 info : Word) (bits : Vector Word 8) :
    (b.setResults r0 r1 info bits).codesValid = b.codesValid := rfl
@[simp] theorem Block.setResults_err (r0 r1 info : Word) (bits : Vector Word 8) :
    (b.setResults r0 r1 info bits).err = b.err := rfl
@[simp] theorem Block.setResults_errAcc (r0 r1 info : Word) (bits : Vector Word 8) :
    (b.setResults r0 r1 info bits).errAcc = b.errAcc := rfl
@[simp] theorem Block.setResults_root (r0 r1 info : Word) (bits : Vector Word 8) :
    (b.setResults r0 r1 info bits).root = b.root := rfl
@[simp] theorem Block.setResults_nodeCount (r0 r1 info : Word) (bits : Vector Word 8) :
    (b.setResults r0 r1 info bits).nodeCount = b.nodeCount := rfl
@[simp] theorem Block.setResults_total (r0 r1 info : Word) (bits : Vector Word 8) :
    (b.setResults r0 r1 info bits).total = b.total := rfl
@[simp] theorem Block.setResults_wlen (r0 r1 info : Word) (bits : Vector Word 8) :
    (b.setResults r0 r1 info bits).wlen = b.wlen := rfl
@[simp] theorem Block.setResults_maxLen (r0 r1 info : Word) (bits : Vector Word 8) :
    (b.setResults r0 r1 info bits).maxLen = b.maxLen := rfl
@[simp] theorem Block.setResults_result0 (r0 r1 info : Word) (bits : Vector Word 8) :
    (b.setResults r0 r1 info bits).result0 = r0 := rfl
@[simp] theorem Block.setResults_result1 (r0 r1 info : Word) (bits : Vector Word 8) :
    (b.setResults r0 r1 info bits).result1 = r1 := rfl
@[simp] theorem Block.setResults_nodeInfo (r0 r1 info : Word) (bits : Vector Word 8) :
    (b.setResults r0 r1 info bits).nodeInfo = info := rfl
@[simp] theorem Block.setResults_codeBits (r0 r1 info : Word) (bits : Vector Word 8) :
    (b.setResults r0 r1 info bits).codeBits = bits := rfl
@[simp] theorem Block.setResults_freq (r0 r1 info : Word) (bits : Vector Word 8) :
    (b.setResults r0 r1 info bits).freq = b.freq := rfl
@[simp] theorem Block.setResults_node (r0 r1 info : Word) (bits : Vector Word 8) :
    (b.setResults r0 r1 info bits).node = b.node := rfl
@[simp] theorem Block.setResults_codeLen (r0 r1 info : Word) (bits : Vector Word 8) :
    (b.setResults r0 r1 info bits).codeLen = b.codeLen := rfl
@[simp] theorem Block.setResults_codeVal (r0 r1 info : Word) (bits : Vector Word 8) :
    (b.setResults r0 r1 info bits).codeVal = b.codeVal := rfl

end setResults

section putTree

@[simp] theorem Block.putTree_phase : (b.putTree).phase = b.phase := rfl
@[simp] theorem Block.putTree_curCmd : (b.putTree).curCmd = b.curCmd := rfl
@[simp] theorem Block.putTree_curArg : (b.putTree).curArg = b.curArg := rfl
@[simp] theorem Block.putTree_arg : (b.putTree).arg = b.arg := rfl
@[simp] theorem Block.putTree_treeValid : (b.putTree).treeValid = true := rfl
@[simp] theorem Block.putTree_codesValid : (b.putTree).codesValid = false := rfl
@[simp] theorem Block.putTree_err : (b.putTree).err = b.err := rfl
@[simp] theorem Block.putTree_errAcc : (b.putTree).errAcc = b.errAcc := rfl
@[simp] theorem Block.putTree_root : (b.putTree).root = BitVec.ofNat 9 (huffmanRoot b.freq) := rfl
@[simp] theorem Block.putTree_nodeCount : (b.putTree).nodeCount = BitVec.ofNat 9 (huffmanNodes b.freq).length := rfl
@[simp] theorem Block.putTree_total : (b.putTree).total = weightAt (huffmanNodes b.freq) (huffmanRoot b.freq) := rfl
@[simp] theorem Block.putTree_wlen : (b.putTree).wlen = 0 := rfl
@[simp] theorem Block.putTree_maxLen : (b.putTree).maxLen = 0 := rfl
@[simp] theorem Block.putTree_result0 : (b.putTree).result0 = b.result0 := rfl
@[simp] theorem Block.putTree_result1 : (b.putTree).result1 = b.result1 := rfl
@[simp] theorem Block.putTree_nodeInfo : (b.putTree).nodeInfo = b.nodeInfo := rfl
@[simp] theorem Block.putTree_codeBits : (b.putTree).codeBits = b.codeBits := rfl
@[simp] theorem Block.putTree_freq : (b.putTree).freq = b.freq := rfl
@[simp] theorem Block.putTree_node : (b.putTree).node = writeNodesFrom b.node 0 (huffmanNodes b.freq) := rfl
@[simp] theorem Block.putTree_codeLen : (b.putTree).codeLen = b.codeLen := rfl
@[simp] theorem Block.putTree_codeVal : (b.putTree).codeVal = b.codeVal := rfl

end putTree

section putCodes

@[simp] theorem Block.putCodes_phase : (b.putCodes).phase = b.phase := rfl
@[simp] theorem Block.putCodes_curCmd : (b.putCodes).curCmd = b.curCmd := rfl
@[simp] theorem Block.putCodes_curArg : (b.putCodes).curArg = b.curArg := rfl
@[simp] theorem Block.putCodes_arg : (b.putCodes).arg = b.arg := rfl
@[simp] theorem Block.putCodes_treeValid : (b.putCodes).treeValid = b.treeValid := rfl
@[simp] theorem Block.putCodes_codesValid : (b.putCodes).codesValid = true := rfl
@[simp] theorem Block.putCodes_err : (b.putCodes).err = b.err := rfl
@[simp] theorem Block.putCodes_errAcc : (b.putCodes).errAcc = b.errAcc := rfl
@[simp] theorem Block.putCodes_root : (b.putCodes).root = b.root := rfl
@[simp] theorem Block.putCodes_nodeCount : (b.putCodes).nodeCount = b.nodeCount := rfl
@[simp] theorem Block.putCodes_total : (b.putCodes).total = b.total := rfl
@[simp] theorem Block.putCodes_wlen :
    (b.putCodes).wlen = BitVec.ofNat 48 (weightedLength (leavesOf b.node (leafCount b.nodeCount)) (codeTableOf b.node b.root).len) := rfl
@[simp] theorem Block.putCodes_maxLen :
    (b.putCodes).maxLen = BitVec.ofNat 8 (longestCode (leavesOf b.node (leafCount b.nodeCount)) (codeTableOf b.node b.root).len) := rfl
@[simp] theorem Block.putCodes_result0 : (b.putCodes).result0 = b.result0 := rfl
@[simp] theorem Block.putCodes_result1 : (b.putCodes).result1 = b.result1 := rfl
@[simp] theorem Block.putCodes_nodeInfo : (b.putCodes).nodeInfo = b.nodeInfo := rfl
@[simp] theorem Block.putCodes_codeBits : (b.putCodes).codeBits = b.codeBits := rfl
@[simp] theorem Block.putCodes_freq : (b.putCodes).freq = b.freq := rfl
@[simp] theorem Block.putCodes_node : (b.putCodes).node = b.node := rfl
@[simp] theorem Block.putCodes_codeLen : (b.putCodes).codeLen = (codeTableOf b.node b.root).len := rfl
@[simp] theorem Block.putCodes_codeVal : (b.putCodes).codeVal = (codeTableOf b.node b.root).val := rfl

end putCodes

section completion

@[simp] theorem Block.complete_ok (t : Block) : b.complete (.ok t) = t.finish .ok := rfl
@[simp] theorem Block.complete_fail (c : ErrCode) : b.complete (.fail c) = b.finish c := rfl
@[simp] theorem State.complete_blk (r : Run) : (s.complete r).blk = s.blk.complete r := rfl
@[simp] theorem State.complete_env (r : Run) : (s.complete r).env = s.env := rfl

end completion

section machine

@[simp] theorem State.withBlk_blk (c : Block) : (s.withBlk c).blk = c := rfl
@[simp] theorem State.withBlk_env (c : Block) : (s.withBlk c).env = s.env := rfl
@[simp] theorem State.withEnv_blk : (s.withEnv e).blk = s.blk := rfl
@[simp] theorem State.withEnv_env : (s.withEnv e).env = e := rfl
@[simp] theorem State.withInputs_blk (l : List Input) : (s.withInputs l).blk = s.blk := rfl
@[simp] theorem State.withInputs_env_inputs (l : List Input) : (s.withInputs l).env.inputs = l := rfl
@[simp] theorem State.withInputs_env_resetHeld (l : List Input) :
    (s.withInputs l).env.resetHeld = s.env.resetHeld := rfl
@[simp] theorem State.withInputs_env_countdown (l : List Input) :
    (s.withInputs l).env.countdown = s.env.countdown := rfl
@[simp] theorem State.withInputs_env_accepts (l : List Input) : (s.withInputs l).env.accepts = s.env.accepts := rfl
@[simp] theorem State.withInputs_env_draws (l : List Input) : (s.withInputs l).env.draws = s.env.draws := rfl
@[simp] theorem State.withInputs_env_reads (l : List Input) : (s.withInputs l).env.reads = s.env.reads := rfl

end machine

section outside

@[simp] theorem Env.tick_inputs : (e.tick).inputs = e.inputs := rfl
@[simp] theorem Env.tick_resetHeld : (e.tick).resetHeld = e.resetHeld := rfl
@[simp] theorem Env.tick_countdown : (e.tick).countdown = e.countdown - 1 := rfl
@[simp] theorem Env.tick_accepts : (e.tick).accepts = e.accepts := rfl
@[simp] theorem Env.tick_draws : (e.tick).draws = e.draws := rfl
@[simp] theorem Env.tick_reads : (e.tick).reads = e.reads := rfl
@[simp] theorem Env.startCommand_inputs : (e.startCommand).inputs = e.inputs := rfl
@[simp] theorem Env.startCommand_resetHeld : (e.startCommand).resetHeld = e.resetHeld := rfl
@[simp] theorem Env.startCommand_countdown : (e.startCommand).countdown = Config.latency e.accepts := rfl
@[simp] theorem Env.startCommand_accepts : (e.startCommand).accepts = e.accepts + 1 := rfl
@[simp] theorem Env.startCommand_draws : (e.startCommand).draws = e.draws := rfl
@[simp] theorem Env.startCommand_reads : (e.startCommand).reads = e.reads := rfl
@[simp] theorem Env.record_inputs (v : Word) : (e.record v).inputs = e.inputs := rfl
@[simp] theorem Env.record_resetHeld (v : Word) : (e.record v).resetHeld = e.resetHeld := rfl
@[simp] theorem Env.record_countdown (v : Word) : (e.record v).countdown = e.countdown := rfl
@[simp] theorem Env.record_accepts (v : Word) : (e.record v).accepts = e.accepts := rfl
@[simp] theorem Env.record_draws (v : Word) : (e.record v).draws = e.draws := rfl
@[simp] theorem Env.record_reads (v : Word) : (e.record v).reads = e.reads ++ [v] := rfl
@[simp] theorem Env.takeDraw_inputs (taken : Bool) : (e.takeDraw taken).inputs = e.inputs := by cases taken <;> rfl
@[simp] theorem Env.takeDraw_resetHeld (taken : Bool) :
    (e.takeDraw taken).resetHeld = e.resetHeld := by cases taken <;> rfl
@[simp] theorem Env.takeDraw_countdown (taken : Bool) :
    (e.takeDraw taken).countdown = e.countdown := by cases taken <;> rfl
@[simp] theorem Env.takeDraw_accepts (taken : Bool) : (e.takeDraw taken).accepts = e.accepts := by cases taken <;> rfl
@[simp] theorem Env.takeDraw_reads (taken : Bool) : (e.takeDraw taken).reads = e.reads := by cases taken <;> rfl
@[simp] theorem Env.takeDraw_draws (taken : Bool) :
    (e.takeDraw taken).draws = e.draws + taken.toNat := by cases taken <;> rfl

end outside

end Sys2Proof.Machine
end

