-- ==== Sys2Proof/Laws/Ops.lean ====
section
/-! SUPPORT. What each shared operation does: reads after writes on the arrays, the error record, and the completion. -/

namespace Sys2Proof.Machine

/-! ### The arrays (R47) -/

@[simp] theorem freqAt_writeFreq_same (freq : Vector Word 256) (s : Symbol) (v : Word) :
    freqAt (writeFreq freq s v) s = v := by
  simp [freqAt, writeFreq]

theorem freqAt_writeFreq_other (freq : Vector Word 256) {s t : Symbol} (v : Word) (h : t ≠ s) :
    freqAt (writeFreq freq s v) t = freqAt freq t := by
  have hne : s.toNat ≠ t.toNat := fun e => h (BitVec.eq_of_toNat_eq e.symm)
  simp [freqAt, writeFreq, Vector.getElem_set_ne, hne]

@[simp] theorem freqAt_zero (s : Symbol) : freqAt (Vector.replicate 256 0#32) s = 0#32 := by
  simp [freqAt]

@[simp] theorem codeLenAt_write_same (len : Vector (BitVec 8) 256) (s : Symbol) (v : BitVec 8) :
    codeLenAt (writeCodeLen len s v) s = v := by
  simp [codeLenAt, writeCodeLen]

theorem codeLenAt_write_other (len : Vector (BitVec 8) 256) {s t : Symbol} (v : BitVec 8) (h : t ≠ s) :
    codeLenAt (writeCodeLen len s v) t = codeLenAt len t := by
  have hne : s.toNat ≠ t.toNat := fun e => h (BitVec.eq_of_toNat_eq e.symm)
  simp [codeLenAt, writeCodeLen, Vector.getElem_set_ne, hne]

@[simp] theorem codeValAt_write_same (val : Vector (BitVec 256) 256) (s : Symbol) (v : BitVec 256) :
    codeValAt (writeCodeVal val s v) s = v := by
  simp [codeValAt, writeCodeVal]

theorem codeValAt_write_other (val : Vector (BitVec 256) 256) {s t : Symbol} (v : BitVec 256) (h : t ≠ s) :
    codeValAt (writeCodeVal val s v) t = codeValAt val t := by
  have hne : s.toNat ≠ t.toNat := fun e => h (BitVec.eq_of_toNat_eq e.symm)
  simp [codeValAt, writeCodeVal, Vector.getElem_set_ne, hne]

/-- Everything a list of node writes does: the entries it covers, inside the store, take its records, and the others
keep what they held. -/
theorem writeNodesFrom_getElem? (recs : List NodeRec) (node : Vector NodeRec 511) (i k : Nat) :
    (writeNodesFrom node i recs)[k]? =
      if i ≤ k ∧ k < i + recs.length ∧ k < 511 then recs[k - i]? else node[k]? := by
  induction recs generalizing node i with
  | nil =>
    have : ¬ (i ≤ k ∧ k < i + ([] : List NodeRec).length ∧ k < 511) := by simp; omega
    rw [if_neg this]; rfl
  | cons r rest ih =>
    rw [writeNodesFrom, ih]
    rcases Nat.lt_trichotomy k i with hk | rfl | hk
    · rw [if_neg (by omega), if_neg (by omega), Vector.getElem?_setIfInBounds_ne (by omega)]
    · rw [if_neg (by omega)]
      by_cases hb : k < 511
      · rw [if_pos ⟨Nat.le_refl _, by simp, hb⟩, Vector.getElem?_setIfInBounds_self_of_lt hb]; simp
      · rw [if_neg (by omega), Vector.getElem?_eq_none (by omega), Vector.getElem?_eq_none (by omega)]
    · obtain ⟨d, rfl⟩ : ∃ d, k = i + 1 + d := ⟨k - (i + 1), by omega⟩
      have e1 : i + 1 + d - (i + 1) = d := by omega
      have e2 : i + 1 + d - i = d + 1 := by omega
      simp only [e1, e2, List.length_cons, List.getElem?_cons_succ]
      rw [Vector.getElem?_setIfInBounds_ne (by omega)]
      by_cases hc : i + 1 + d < i + 1 + rest.length ∧ i + 1 + d < 511
      · rw [if_pos ⟨by omega, hc.1, hc.2⟩, if_pos ⟨by omega, by omega, hc.2⟩]
      · rw [if_neg (by omega), if_neg (by omega)]

/-- The entries a BUILD_TREE writes (R122). -/
theorem writeNodesFrom_below (node : Vector NodeRec 511) (recs : List NodeRec) {k : Nat} (h : k < recs.length)
    (hb : k < 511) : (writeNodesFrom node 0 recs)[k]? = recs[k]? := by
  rw [writeNodesFrom_getElem?, if_pos ⟨Nat.zero_le _, by omega, hb⟩, Nat.sub_zero]

/-- "Entries of NODE at NODE_COUNT and above are not written" (R122). -/
theorem writeNodesFrom_above (node : Vector NodeRec 511) (recs : List NodeRec) {k : Nat} (h : recs.length ≤ k) :
    (writeNodesFrom node 0 recs)[k]? = node[k]? := by
  rw [writeNodesFrom_getElem?, if_neg (by omega)]

/-! ### The error record (R165, R167) -/

@[simp] theorem raiseAcc_ok (acc : BitVec 7) : raiseAcc acc .ok = acc := rfl

/-- A raised code sets its bit and no other. -/
theorem raiseAcc_getLsbD (acc : BitVec 7) (c : ErrCode) (k : Nat) :
    (raiseAcc acc c).getLsbD k = (acc.getLsbD k || (decide (c ≠ .ok) && decide (k = c.code.toNat))) := by
  have hbit : ∀ j : Nat, ((1#7 <<< j).getLsbD k) = (decide (k < 7) && decide (k = j)) := by
    intro j
    rcases Nat.lt_trichotomy k j with h | rfl | h
    · simp [BitVec.getLsbD_shiftLeft, h]; omega
    · simp [BitVec.getLsbD_shiftLeft]
    · have : k - j ≠ 0 := by omega
      simp [BitVec.getLsbD_shiftLeft, BitVec.getLsbD_one, this]; omega
  by_cases hc : c = .ok
  · simp [hc]
  · have hlt : c.code.toNat < 7 := by cases c <;> decide
    rw [raiseAcc, if_neg hc, BitVec.getLsbD_or, hbit]
    by_cases hk : k = c.code.toNat <;> simp [hc, hk, hlt]

/-! ### The completion (R84, R166 to R168) -/

/-- A completion either takes every effect and code 0, or none and its own code. -/
theorem Block.complete_cases (b : Block) (r : Run) :
    (∃ t, r = .ok t ∧ b.complete r = t.finish .ok) ∨ (∃ c, r = .fail c ∧ b.complete r = b.finish c) := by
  cases r with
  | ok t => exact .inl ⟨t, rfl, rfl⟩
  | fail c => exact .inr ⟨c, rfl, rfl⟩

/-- Every completion leaves the engine Idle. -/
@[simp] theorem Block.complete_phase (b : Block) (r : Run) : (b.complete r).phase = .idle := by
  cases r <;> rfl

end Sys2Proof.Machine
end

