-- ==== Sys2Proof/Laws/Frequency.lean ====
section
/-! SUPPORT. The frequency table the tree builder sees, and NSYM. -/

namespace Sys2Proof.Machine

@[simp] theorem alphabet_length : alphabet.length = 256 := by simp [alphabet]

theorem mem_alphabet (s : Symbol) : s ∈ alphabet := by
  simp only [alphabet, List.mem_map, List.mem_range]
  exact ⟨s.toNat, s.isLt, by simp⟩

theorem alphabet_nodup : alphabet.Nodup := by
  rw [alphabet, List.nodup_map_iff_inj_on List.nodup_range]
  intro i hi j hj h
  have := congrArg BitVec.toNat h
  simp only [List.mem_range, BitVec.toNat_ofNat] at *
  omega

/-- Each symbol beside its frequency (R101). -/
theorem zip_alphabet (freq : Vector Word 256) :
    alphabet.zip freq.toList = alphabet.map fun s => (s, freqAt freq s) := by
  apply List.ext_getElem
  · simp
  · intro i h1 h2
    have hi : i < 256 := by simpa using h2
    simp [alphabet, freqAt, Nat.mod_eq_of_lt hi]

/-- The table of R101 is the present symbols, each with its frequency. -/
theorem presentEntries_eq (freq : Vector Word 256) :
    presentEntries freq = (alphabet.filter fun s => freqAt freq s != 0).map fun s => (s, freqAt freq s) := by
  rw [presentEntries, zip_alphabet, List.filter_map]; rfl

/-- "syms <- [ s for s in 0..255 if FREQ[s] != 0 ]" (R122). -/
theorem presentSymbols_eq (freq : Vector Word 256) :
    presentSymbols freq = alphabet.filter fun s => freqAt freq s != 0 := by
  simp [presentSymbols, presentEntries_eq, Function.comp_def]

theorem presentEntries_eq_map (freq : Vector Word 256) :
    presentEntries freq = (presentSymbols freq).map fun s => (s, freqAt freq s) := by
  rw [presentEntries_eq, presentSymbols_eq]

theorem mem_presentSymbols (freq : Vector Word 256) (s : Symbol) :
    s ∈ presentSymbols freq ↔ freqAt freq s ≠ 0 := by
  simp [presentSymbols_eq, mem_alphabet]

theorem presentEntries_ne_nil {freq : Vector Word 256} {s : Symbol} (h : freqAt freq s ≠ 0) :
    presentEntries freq ≠ [] := by
  intro he
  have := (mem_presentSymbols freq s).2 h
  simp [presentSymbols, he] at this

theorem presentSymbols_nodup (freq : Vector Word 256) : (presentSymbols freq).Nodup := by
  rw [presentSymbols_eq]; exact alphabet_nodup.filter _

@[simp] theorem presentSymbols_length (freq : Vector Word 256) :
    (presentSymbols freq).length = (presentEntries freq).length := by simp [presentSymbols]

/-- At most 256 symbols are present (R6 MAX_SYMBOLS). -/
theorem presentEntries_length_le (freq : Vector Word 256) : (presentEntries freq).length ≤ 256 := by
  rw [← presentSymbols_length, presentSymbols_eq, ← alphabet_length]; exact List.length_filter_le _ _

/-- NSYM holds the number of present symbols, 256 included (R24). -/
@[simp] theorem nsym_toNat (freq : Vector Word 256) : (nsym freq).toNat = (presentEntries freq).length := by
  have := presentEntries_length_le freq
  simp only [nsym, presentSymbols_length, BitVec.toNat_ofNat]
  omega

theorem presentEntries_getElem? (freq : Vector Word 256) (k : Nat) :
    (presentEntries freq)[k]? = (presentSymbols freq)[k]?.map fun s => (s, freqAt freq s) := by
  rw [presentEntries_eq_map, List.getElem?_map]

theorem presentEntries_ne_zero (freq : Vector Word 256) : ∀ e ∈ presentEntries freq, e.2 ≠ 0 := by
  intro e he
  simp only [presentEntries, List.mem_filter] at he
  simpa using he.2

@[simp] theorem presentEntries_zero : presentEntries (Vector.replicate 256 0#32) = [] := by
  rw [presentEntries_eq]
  simp

end Sys2Proof.Machine
end

