-- ==== Sys2Proof/Laws/Tree.lean ====
section
/-! SUPPORT. The merge rounds of BUILD_TREE: the order ≺, one round, and the invariant that holds after every round. -/

namespace Sys2Proof.Machine

/-! ### The order ≺ (R11) -/

section order

variable {nodes : List NodeRec}

theorem precedes_iff {i j : Nat} : precedes nodes i j = true ↔
    (weightAt nodes i).toNat < (weightAt nodes j).toNat ∨
      ((weightAt nodes i).toNat = (weightAt nodes j).toNat ∧ i < j) := by
  simp [precedes, BitVec.lt_def, ← BitVec.toNat_inj]

theorem precedes_trans {i j k : Nat} (h1 : precedes nodes i j = true) (h2 : precedes nodes j k = true) :
    precedes nodes i k = true := by
  rw [precedes_iff] at *; omega

/-- ≺ is total on distinct indices (R11). -/
theorem precedes_total {i j : Nat} (h : i ≠ j) : precedes nodes i j = true ∨ precedes nodes j i = true := by
  simp only [precedes_iff]; omega

theorem argmin_mem (i : Nat) (rest : List Nat) : argmin nodes i rest ∈ i :: rest := by
  induction rest generalizing i with
  | nil => simp [argmin]
  | cons j rest ih =>
    rw [argmin]
    rcases List.mem_cons.1 (ih (if precedes nodes j i then j else i)) with h | h
    · rw [h]; split <;> simp
    · exact List.mem_cons_of_mem _ (List.mem_cons_of_mem _ h)

/-- `argmin_≺` precedes every other index of its set (R10). -/
theorem argmin_least (i : Nat) (rest : List Nat) :
    ∀ k ∈ i :: rest, k ≠ argmin nodes i rest → precedes nodes (argmin nodes i rest) k = true := by
  induction rest generalizing i with
  | nil => simp [argmin]
  | cons j rest ih =>
    intro k hk hne
    rw [argmin] at hne ⊢
    by_cases hji : precedes nodes j i = true
    · simp only [hji, if_true] at hne ⊢
      rcases List.mem_cons.1 hk with rfl | hk
      · by_cases hj : j = argmin nodes j rest
        · rw [← hj]; exact hji
        · exact precedes_trans (ih j j (by simp) hj) hji
      · exact ih j k hk hne
    · simp only [hji, if_false, Bool.false_eq_true] at hne ⊢
      rcases List.mem_cons.1 hk with rfl | hk
      · exact ih k k (by simp) hne
      · rcases List.mem_cons.1 hk with rfl | hk
        · by_cases hik : i = k
          · subst hik; exact ih i i (by simp) hne
          have hik' := (precedes_total hik).resolve_right hji
          by_cases hi : i = argmin nodes i rest
          · rw [← hi]; exact hik'
          · exact precedes_trans (ih i i (by simp) hi) hik'
        · exact ih i k (by simp [hk]) hne

end order

/-! ### One merge round (R122) -/

/-- Entry k of a list of nodes. -/
def nodeOf (nodes : List NodeRec) (k : Nat) : NodeRec := nodes[k]?.getD NodeRec.zero

theorem weightAt_eq (nodes : List NodeRec) (k : Nat) : weightAt nodes k = (nodeOf nodes k).weight := rfl

theorem nodeOf_append_lt {nodes l : List NodeRec} {k : Nat} (h : k < nodes.length) :
    nodeOf (nodes ++ l) k = nodeOf nodes k := by
  simp [nodeOf, List.getElem?_append_left h]

@[simp] theorem nodeOf_append_self (nodes : List NodeRec) (r : NodeRec) : nodeOf (nodes ++ [r]) nodes.length = r := by
  simp [nodeOf]

theorem weightAt_append_lt {nodes l : List NodeRec} {k : Nat} (h : k < nodes.length) :
    weightAt (nodes ++ l) k = weightAt nodes k := by
  rw [weightAt_eq, weightAt_eq, nodeOf_append_lt h]

theorem precedes_append {nodes l : List NodeRec} {i j : Nat} (hi : i < nodes.length) (hj : j < nodes.length) :
    precedes (nodes ++ l) i j = precedes nodes i j := by
  simp [precedes, weightAt_append_lt hi, weightAt_append_lt hj]

/-- Everything a merge round does: it takes the ≺-least index a and the next ≺-least b, and adds their parent. -/
theorem mergeRound_spec {f : Forest} (hn : f.active.Nodup) (hl : 2 ≤ f.active.length) :
    ∃ a b, a ∈ f.active ∧ b ∈ f.active.erase a ∧ precedes f.nodes a b = true ∧
      (∀ i ∈ f.active, i ≠ a → i ≠ b → precedes f.nodes b i = true) ∧
      mergeRound f = { nodes := f.nodes ++ [innerRec f.nodes a b],
                       active := ((f.active.erase a).erase b) ++ [f.nodes.length] } := by
  match hf : f.active with
  | [] => simp [hf] at hl
  | i :: rest =>
    have ha := argmin_mem (nodes := f.nodes) i rest
    have haleast := argmin_least (nodes := f.nodes) i rest
    rw [hf] at hn
    unfold mergeRound
    rw [hf]
    dsimp only
    generalize argmin f.nodes i rest = a at *
    match he : (i :: rest).erase a with
    | [] =>
      have := List.length_erase_of_mem ha
      rw [he] at this
      simp [hf] at hl this
      omega
    | j :: rest' =>
      have hb := argmin_mem (nodes := f.nodes) j rest'
      have hbleast := argmin_least (nodes := f.nodes) j rest'
      dsimp only
      generalize argmin f.nodes j rest' = b at *
      have hb' : b ∈ (i :: rest).erase a := he ▸ hb
      have hba := (hn.mem_erase_iff).1 hb'
      refine ⟨a, b, ha, hb', haleast b hba.2 hba.1, ?_, by rw [he]⟩
      intro k hk hka hkb
      exact hbleast k (he ▸ (hn.mem_erase_iff).2 ⟨hka, hk⟩) hkb

/-! ### What holds after every round -/

/-- Index i is in the working collection when node j is made (R121): it exists, and no internal node made before has it
as a child. -/
def activeIn (nodes : List NodeRec) (n j i : Nat) : Prop :=
  i < j ∧ ∀ k, n ≤ k → k < j → (nodeOf nodes k).left.toNat ≠ i ∧ (nodeOf nodes k).right.toNat ≠ i

theorem activeIn_append {nodes l : List NodeRec} {n j : Nat} (h : j ≤ nodes.length) (i : Nat) :
    activeIn (nodes ++ l) n j i ↔ activeIn nodes n j i := by
  have : ∀ k, k < j → nodeOf (nodes ++ l) k = nodeOf nodes k := fun k hk => nodeOf_append_lt (by omega)
  constructor <;> rintro ⟨h1, h2⟩ <;> refine ⟨h1, fun k hk hkj => ?_⟩ <;> simpa [this k hkj] using h2 k hk hkj

/-- Internal node j is the parent of the two ≺-least indices active when it is made (R118, R119, R122), and its weight is
their exact sum (R117). -/
structure Selected (nodes : List NodeRec) (n j a b : Nat) : Prop where
  record : nodeOf nodes j = innerRec nodes a b
  sum    : (weightAt nodes j).toNat = (weightAt nodes a).toNat + (weightAt nodes b).toNat
  first  : activeIn nodes n j a
  second : activeIn nodes n j b
  order  : precedes nodes a b = true
  least  : ∀ i, activeIn nodes n j i → i ≠ a → i ≠ b → precedes nodes b i = true

theorem Selected.append {nodes l : List NodeRec} {n j a b : Nat} (hj : j < nodes.length) (h : Selected nodes n j a b) :
    Selected (nodes ++ l) n j a b := by
  have ha : a < nodes.length := lt_trans h.first.1 hj
  have hb : b < nodes.length := lt_trans h.second.1 hj
  constructor
  · rw [nodeOf_append_lt hj, h.record, innerRec, innerRec, weightAt_append_lt ha, weightAt_append_lt hb]
  · rw [weightAt_append_lt hj, weightAt_append_lt ha, weightAt_append_lt hb]; exact h.sum
  · exact (activeIn_append hj.le _).2 h.first
  · exact (activeIn_append hj.le _).2 h.second
  · rw [precedes_append ha hb]; exact h.order
  · intro i hi hia hib
    have hi' := (activeIn_append hj.le _).1 hi
    rw [precedes_append hb (lt_trans hi'.1 hj)]
    exact h.least i hi' hia hib

/-- The invariant of the merge rounds over the entries es of the frequency table. -/
structure Forest.Good (es : List (Symbol × Word)) (f : Forest) : Prop where
  leaves : ∀ k, k < es.length → f.nodes[k]? = (es.map leafRec)[k]?
  nodup  : f.active.Nodup
  count  : f.nodes.length + f.active.length = 2 * es.length
  longer : es.length ≤ f.nodes.length
  active : ∀ i, i ∈ f.active ↔ activeIn f.nodes es.length f.nodes.length i
  inner  : ∀ j, es.length ≤ j → j < f.nodes.length → ∃ a b, Selected f.nodes es.length j a b
  weight : (f.active.map fun i => (weightAt f.nodes i).toNat).sum = (es.map fun e => e.2.toNat).sum

/-- At most 256 · (2^32 − 1): the bound of R7. -/
theorem sum_entries_lt (es : List (Symbol × Word)) (h : es.length ≤ 256) :
    (es.map fun e => e.2.toNat).sum < 2 ^ 40 := by
  have : (es.map fun e => e.2.toNat).sum ≤ es.length * (2 ^ 32 - 1) := by
    clear h
    induction es with
    | nil => simp
    | cons e es ih =>
      have := e.2.isLt
      simp only [List.map_cons, List.sum_cons, List.length_cons, Nat.add_mul]
      omega
  have h2 : es.length * (2 ^ 32 - 1) ≤ 256 * (2 ^ 32 - 1) := Nat.mul_le_mul_right _ h
  omega

/-- The leaves alone (R120). -/
theorem leafForest_good (freq : Vector Word 256) : (leafForest freq).Good (presentEntries freq) := by
  constructor
  · intro k _; rfl
  · exact List.nodup_range
  · simp [leafForest]; omega
  · simp [leafForest]
  · intro i
    simp only [leafForest, List.mem_range, activeIn, List.length_map]
    constructor
    · intro h; exact ⟨h, fun k h1 h2 => absurd h1 (by omega)⟩
    · exact fun h => h.1
  · intro j h1 h2
    simp only [leafForest, List.length_map] at h2
    omega
  · simp only [leafForest]
    congr 1
    apply List.ext_getElem
    · simp
    · intro k h1 h2
      have hk : k < (presentEntries freq).length := by simpa using h2
      have h40 : (presentEntries freq)[k].2.toNat < 1099511627776 := by
        have := (presentEntries freq)[k].2.isLt; omega
      simp [weightAt, leafRec, hk, Nat.mod_eq_of_lt h40]

/-- A merge round keeps the invariant. -/
theorem mergeRound_good {es : List (Symbol × Word)} {f : Forest} (hes : es.length ≤ 256) (hg : f.Good es)
    (hl : 2 ≤ f.active.length) :
    (mergeRound f).Good es ∧ (mergeRound f).active.length + 1 = f.active.length := by
  obtain ⟨a, b, ha, hb, hab, hleast, heq⟩ := mergeRound_spec hg.nodup hl
  have hbm := hg.nodup.mem_erase_iff.1 hb
  have haA := (hg.active a).1 ha
  have hbA := (hg.active b).1 hbm.2
  have hcount := hg.count
  have hla : a < 512 := by have := haA.1; omega
  have hlb : b < 512 := by have := hbA.1; omega
  have hlen1 := List.length_erase_of_mem ha
  have hlen2 := List.length_erase_of_mem hb
  have hperm : f.active.Perm (a :: b :: (f.active.erase a).erase b) :=
    (List.perm_cons_erase ha).trans ((List.perm_cons_erase hb).cons a)
  have hsum := (hperm.map fun i => (weightAt f.nodes i).toNat).sum_eq
  rw [hg.weight] at hsum
  simp only [List.map_cons, List.sum_cons] at hsum
  have hbound := sum_entries_lt es hes
  have hexact : (weightAt f.nodes a + weightAt f.nodes b).toNat =
      (weightAt f.nodes a).toNat + (weightAt f.nodes b).toNat := by
    rw [BitVec.toNat_add]; apply Nat.mod_eq_of_lt; omega
  have hsel : Selected (f.nodes ++ [innerRec f.nodes a b]) es.length f.nodes.length a b := by
    constructor
    · rw [nodeOf_append_self, innerRec, innerRec, weightAt_append_lt haA.1, weightAt_append_lt hbA.1]
    · rw [weightAt_append_lt haA.1, weightAt_append_lt hbA.1, weightAt_eq, nodeOf_append_self, ← hexact]; rfl
    · exact (activeIn_append le_rfl _).2 haA
    · exact (activeIn_append le_rfl _).2 hbA
    · rw [precedes_append haA.1 hbA.1]; exact hab
    · intro i hi hia hib
      have hi' := (activeIn_append le_rfl _).1 hi
      rw [precedes_append hbA.1 hi'.1]
      exact hleast i ((hg.active i).2 hi') hia hib
  have hmem : ∀ i, i ∈ (f.active.erase a).erase b ↔ i ∈ f.active ∧ i ≠ a ∧ i ≠ b := by
    intro i
    rw [(hg.nodup.erase a).mem_erase_iff, hg.nodup.mem_erase_iff]; tauto
  rw [heq]
  refine ⟨?_, by simp; omega⟩
  constructor
  · intro k hk
    rw [List.getElem?_append_left (by have := hg.longer; omega)]
    exact hg.leaves k hk
  · rw [List.nodup_append]
    refine ⟨(hg.nodup.erase a).erase b, by simp, ?_⟩
    rintro i hi j hj rfl
    have h1 := ((hg.active i).1 ((hmem i).1 hi).1).1
    simp at hj
    omega
  · simp; omega
  · simp; have := hg.longer; omega
  · intro i
    simp only [List.mem_append, List.mem_singleton, hmem, List.length_append, List.length_singleton, activeIn]
    constructor
    · rintro (⟨hi, hia, hib⟩ | rfl)
      · have hi' := (hg.active i).1 hi
        refine ⟨by have := hi'.1; omega, fun k hk1 hk2 => ?_⟩
        rcases Nat.lt_succ_iff_lt_or_eq.1 hk2 with h | rfl
        · rw [nodeOf_append_lt h]; exact hi'.2 k hk1 h
        · rw [nodeOf_append_self]
          simp only [innerRec, BitVec.toNat_ofNat]
          omega
      · refine ⟨by omega, fun k hk1 hk2 => ?_⟩
        rcases Nat.lt_succ_iff_lt_or_eq.1 hk2 with h | rfl
        · obtain ⟨a', b', hs⟩ := hg.inner k hk1 h
          have h1 := hs.first.1
          have h2 := hs.second.1
          rw [nodeOf_append_lt h, hs.record]
          simp only [innerRec, BitVec.toNat_ofNat]
          omega
        · rw [nodeOf_append_self]
          have h1 := haA.1
          have h2 := hbA.1
          simp only [innerRec, BitVec.toNat_ofNat]
          omega
    · rintro ⟨hi, h⟩
      rcases Nat.lt_succ_iff_lt_or_eq.1 hi with hlt | rfl
      · left
        have hself := h f.nodes.length hg.longer (by omega)
        rw [nodeOf_append_self] at hself
        simp only [innerRec, BitVec.toNat_ofNat] at hself
        refine ⟨(hg.active i).2 ⟨hlt, fun k hk1 hk2 => ?_⟩, by omega, by omega⟩
        have := h k hk1 (by omega)
        rwa [nodeOf_append_lt hk2] at this
      · right; rfl
  · intro j hj1 hj2
    simp only [List.length_append, List.length_singleton] at hj2
    rcases Nat.lt_succ_iff_lt_or_eq.1 hj2 with h | rfl
    · obtain ⟨a', b', hs⟩ := hg.inner j hj1 h
      exact ⟨a', b', hs.append h⟩
    · exact ⟨a, b, hsel⟩
  · rw [List.map_append, List.sum_append]
    have hkeep : ((f.active.erase a).erase b).map (fun i => (weightAt (f.nodes ++ [innerRec f.nodes a b]) i).toNat) =
        ((f.active.erase a).erase b).map fun i => (weightAt f.nodes i).toNat := by
      apply List.map_congr_left
      intro i hi
      rw [weightAt_append_lt ((hg.active i).1 ((hmem i).1 hi).1).1]
    rw [hkeep]
    simp only [List.map_cons, List.map_nil, List.sum_cons, List.sum_nil]
    rw [weightAt_eq _ f.nodes.length, nodeOf_append_self]
    simp only [innerRec, hexact]
    omega

/-- All the rounds: one index is left active (R122). -/
theorem mergeRounds_good {es : List (Symbol × Word)} (hes : es.length ≤ 256) (k : Nat) {f : Forest} (hg : f.Good es)
    (hl : f.active.length = k + 1) : (mergeRounds k f).Good es ∧ (mergeRounds k f).active.length = 1 := by
  induction k generalizing f with
  | zero => exact ⟨hg, hl⟩
  | succ k ih =>
    obtain ⟨h1, h2⟩ := mergeRound_good hes hg (by omega)
    exact ih h1 (by omega)

/-! ### The finished tree -/

section finished

variable (freq : Vector Word 256) (h : presentEntries freq ≠ [])

include h

theorem huffmanForest_good :
    (huffmanForest freq).Good (presentEntries freq) ∧ (huffmanForest freq).active.length = 1 := by
  have hpos : 0 < (presentEntries freq).length := List.length_pos_iff.2 h
  exact mergeRounds_good (presentEntries_length_le freq) _ (leafForest_good freq) (by simp [leafForest]; omega)

/-- "NODE_COUNT = 2n − 1" (R130). -/
theorem huffmanNodes_length : (huffmanNodes freq).length + 1 = 2 * (presentEntries freq).length := by
  obtain ⟨hg, h1⟩ := huffmanForest_good freq h
  have := hg.count
  rw [huffmanNodes]; omega

theorem huffmanNodes_length_le : (huffmanNodes freq).length ≤ 511 := by
  have h1 := huffmanNodes_length freq h
  have h2 := presentEntries_length_le freq
  omega

/-- The root is the last node made: "ROOT = 2n − 2" (R130). -/
theorem huffmanRoot_eq : huffmanRoot freq + 1 = (huffmanNodes freq).length := by
  obtain ⟨hg, h1⟩ := huffmanForest_good freq h
  have hlen := huffmanNodes_length freq h
  have hpos : 0 < (presentEntries freq).length := List.length_pos_iff.2 h
  have h9 := huffmanNodes_length_le freq h
  obtain ⟨r, hr⟩ := List.length_eq_one_iff.1 h1
  have hmem : (huffmanNodes freq).length - 1 ∈ (huffmanForest freq).active := by
    rw [hg.active]
    refine ⟨by rw [huffmanNodes] at *; omega, fun k hk1 hk2 => ?_⟩
    obtain ⟨a, b, hs⟩ := hg.inner k hk1 hk2
    have ha := hs.first.1
    have hb := hs.second.1
    rw [hs.record]
    rw [huffmanNodes] at *
    simp only [innerRec, BitVec.toNat_ofNat]
    omega
  rw [hr, List.mem_singleton] at hmem
  rw [huffmanRoot, hr, List.headD_cons, ← hmem]
  omega

/-- "TOTAL = Σ_s FREQ[s]" (R128): the root weighs what all the entries weigh. -/
theorem huffman_total :
    (weightAt (huffmanNodes freq) (huffmanRoot freq)).toNat = ((presentEntries freq).map fun e => e.2.toNat).sum := by
  obtain ⟨hg, h1⟩ := huffmanForest_good freq h
  obtain ⟨r, hr⟩ := List.length_eq_one_iff.1 h1
  have := hg.weight
  rw [hr] at this
  rw [huffmanRoot, hr, huffmanNodes]
  simpa using this

end finished

end Sys2Proof.Machine
end

