-- ==== Sys2Proof/Laws/Codes.lean ====
section
/-! SUPPORT. The tree a node store holds, as a recursive type; the walk of GEN_CODES over it, and the code table it
leaves. -/

namespace Sys2Proof.Machine

/-! ### Trees (R13, R116) -/

/-- A strict binary tree: a leaf has a symbol and its frequency. -/
inductive HTree where
  | leaf (s : Symbol) (w : Nat)
  | node (l r : HTree)
  deriving DecidableEq, Repr

namespace HTree

/-- The leaves, left to right. -/
def leaves : HTree → List (Symbol × Nat)
  | leaf s w => [(s, w)]
  | node l r => l.leaves ++ r.leaves

/-- The weight: an internal node's is the sum of its children's (R116). -/
def weight : HTree → Nat
  | leaf _ w => w
  | node l r => l.weight + r.weight

/-- Each leaf's symbol with the path to it: 0 to the left, 1 to the right (R12, R141). -/
def paths : HTree → List (Symbol × List Bool)
  | leaf s _ => [(s, [])]
  | node l r => l.paths.map (fun e => (e.1, false :: e.2)) ++ r.paths.map (fun e => (e.1, true :: e.2))

/-- The sum of the weights of all internal nodes (R152). -/
def inner : HTree → Nat
  | leaf _ _ => 0
  | node l r => l.weight + r.weight + l.inner + r.inner

theorem leaves_pos (t : HTree) : 0 < t.leaves.length := by
  induction t with
  | leaf => simp [leaves]
  | node l r ihl ihr => simp [leaves]; omega

theorem weight_eq_sum (t : HTree) : t.weight = (t.leaves.map Prod.snd).sum := by
  induction t with
  | leaf => simp [weight, leaves]
  | node l r ihl ihr => simp [weight, leaves, ihl, ihr]

/-- Every leaf has one path. -/
theorem paths_symbols (t : HTree) : t.paths.map Prod.fst = t.leaves.map Prod.fst := by
  induction t with
  | leaf => rfl
  | node l r ihl ihr => simp [paths, leaves, ← ihl, ← ihr, Function.comp_def]

/-- A path is shorter than the number of leaves (R150). -/
theorem path_length_lt (t : HTree) : ∀ e ∈ t.paths, e.2.length < t.leaves.length := by
  induction t with
  | leaf => simp [paths, leaves]
  | node l r ihl ihr =>
    have hl := l.leaves_pos
    have hr := r.leaves_pos
    intro e he
    simp only [paths, List.mem_append, List.mem_map] at he
    rcases he with ⟨d, hd, rfl⟩ | ⟨d, hd, rfl⟩
    · have := ihl d hd; simp [leaves]; omega
    · have := ihr d hd; simp [leaves]; omega

/-- The paths to the leaves are a prefix-free set: "codes correspond to distinct leaves in a strict binary tree" (R149). -/
theorem paths_prefix_free (t : HTree) :
    ∀ d ∈ t.paths, ∀ e ∈ t.paths, d.2 <+: e.2 → d.2 = e.2 := by
  induction t with
  | leaf => simp [paths]
  | node l r ihl ihr =>
    intro d hd e he hp
    simp only [paths, List.mem_append, List.mem_map] at hd he
    rcases hd with ⟨d, hd, rfl⟩ | ⟨d, hd, rfl⟩ <;> rcases he with ⟨e, he, rfl⟩ | ⟨e, he, rfl⟩ <;>
      simp only [List.cons_prefix_cons] at hp
    · simp [ihl d hd e he hp.2]
    · simp at hp
    · simp at hp
    · simp [ihr d hd e he hp.2]

/-- Distinct leaves have distinct paths. -/
theorem paths_nodup (t : HTree) : (t.paths.map Prod.snd).Nodup := by
  induction t with
  | leaf => simp [paths]
  | node l r ihl ihr =>
    rw [paths, List.map_append, List.nodup_append, List.map_map, List.map_map]
    refine ⟨?_, ?_, ?_⟩
    · rw [show (Prod.snd ∘ fun e : Symbol × List Bool => (e.1, false :: e.2)) = (List.cons false) ∘ Prod.snd from rfl,
        ← List.map_map]
      exact ihl.map (List.cons_injective)
    · rw [show (Prod.snd ∘ fun e : Symbol × List Bool => (e.1, true :: e.2)) = (List.cons true) ∘ Prod.snd from rfl,
        ← List.map_map]
      exact ihr.map (List.cons_injective)
    · intro p hp q hq
      simp only [List.mem_map, Function.comp] at hp hq
      obtain ⟨d, -, rfl⟩ := hp
      obtain ⟨e, -, rfl⟩ := hq
      simp

end HTree

/-! ### The tree in a node store -/

/-- Node i of the nodes `g`, all of whose indices are below N, is the root of the tree T. -/
inductive Rep (g : Nat → NodeRec) (N : Nat) : Nat → HTree → Prop where
  | leaf {i : Nat} (hi : i < N) (hl : (g i).isLeaf = true) :
      Rep g N i (.leaf (g i).sym (g i).weight.toNat)
  | node {i : Nat} {l r : HTree} (hi : i < N) (hl : (g i).isLeaf = false) (left : Rep g N (g i).left.toNat l)
      (right : Rep g N (g i).right.toNat r) (hw : (g i).weight.toNat = l.weight + r.weight) : Rep g N i (.node l r)

theorem Rep.lt {g : Nat → NodeRec} {N i : Nat} {T : HTree} (h : Rep g N i T) : i < N := by
  cases h <;> assumption

/-- The record's weight is the tree's (R116, R128). -/
theorem Rep.weight_eq {g : Nat → NodeRec} {N i : Nat} {T : HTree} (h : Rep g N i T) : (g i).weight.toNat = T.weight := by
  cases h with
  | leaf => rfl
  | node _ _ _ _ hw => exact hw

/-- Only the nodes below N matter. -/
theorem Rep.congr {g g' : Nat → NodeRec} {N N' i : Nat} {T : HTree} (h : Rep g N i T) (hN : N ≤ N')
    (hg : ∀ k, k < N → g' k = g k) : Rep g' N' i T := by
  induction h with
  | @leaf i hi hl =>
    have e := hg i hi
    rw [← e]; exact .leaf (by omega) (by rw [e]; exact hl)
  | @node i l r hi hl _ _ hw ihl ihr =>
    have e := hg i hi
    exact .node (by omega) (by rw [e]; exact hl) (by rw [e]; exact ihl) (by rw [e]; exact ihr) (by rw [e]; exact hw)

/-- The trees of the working collection hold the entries of the frequency table, each once (R121, R129), and
their internal nodes are the nodes made so far (R152). -/
def Forest.HoldsTrees (es : List (Symbol × Word)) (f : Forest) (τ : Nat → HTree) : Prop :=
  (∀ i ∈ f.active, Rep (nodeOf f.nodes) f.nodes.length i (τ i)) ∧
  (f.active.flatMap fun i => (τ i).leaves).Perm (es.map fun e => (e.1, e.2.toNat)) ∧
  (f.active.map fun i => (τ i).inner).sum =
    ((List.range' es.length (f.nodes.length - es.length)).map fun j => (weightAt f.nodes j).toNat).sum

theorem leafForest_trees (freq : Vector Word 256) :
    ∃ τ, (leafForest freq).HoldsTrees (presentEntries freq) τ := by
  have hget : ∀ k (hk : k < (presentEntries freq).length),
      nodeOf (leafForest freq).nodes k = leafRec ((presentEntries freq)[k]) := by
    intro k hk; simp [nodeOf, leafForest, hk]
  refine ⟨fun i => .leaf (nodeOf (leafForest freq).nodes i).sym (nodeOf (leafForest freq).nodes i).weight.toNat,
    ?_, ?_, by simp [leafForest, HTree.inner]⟩
  · intro i hi
    have hi' : i < (presentEntries freq).length := by simpa [leafForest] using hi
    exact .leaf (by simpa [leafForest] using hi') (by rw [hget i hi']; rfl)
  · simp only [HTree.leaves, ← List.map_eq_flatMap]
    refine List.Perm.of_eq (List.ext_getElem (by simp [leafForest]) ?_)
    intro k h1 h2
    have hk : k < (presentEntries freq).length := by simpa using h2
    have h40 : (presentEntries freq)[k].2.toNat < 1099511627776 := by
      have := (presentEntries freq)[k].2.isLt; omega
    have e : (leafForest freq).active[k]'(by simpa [leafForest] using hk) = k := by simp [leafForest]
    simp [e, hget k hk, leafRec, Nat.mod_eq_of_lt h40]

/-- A round joins the two selected trees. -/
theorem mergeRound_trees {es : List (Symbol × Word)} {f : Forest} {τ : Nat → HTree} (hes : es.length ≤ 256)
    (hg : f.Good es) (hl : 2 ≤ f.active.length) (ht : f.HoldsTrees es τ) : ∃ τ', (mergeRound f).HoldsTrees es τ' := by
  obtain ⟨a, b, ha, hb, hab, hleast, heq⟩ := mergeRound_spec hg.nodup hl
  have hbm := hg.nodup.mem_erase_iff.1 hb
  have hla := ((hg.active a).1 ha).1
  have hlb := ((hg.active b).1 hbm.2).1
  have hcount := hg.count
  have hgood := (mergeRound_good hes hg hl).1
  rw [heq] at hgood ⊢
  obtain ⟨a', b', hsel⟩ := hgood.inner f.nodes.length hg.longer (by simp)
  have hrec := hsel.record
  rw [nodeOf_append_self] at hrec
  have ha9 : (innerRec f.nodes a b).left.toNat = a := by simp only [innerRec, BitVec.toNat_ofNat]; omega
  have hb9 : (innerRec f.nodes a b).right.toNat = b := by simp only [innerRec, BitVec.toNat_ofNat]; omega
  have ha' : a' = a := by
    have h1 := congrArg (fun r => r.left.toNat) hrec
    have := hsel.first.1
    simp only [innerRec, BitVec.toNat_ofNat] at h1
    rw [Nat.mod_eq_of_lt (by omega), Nat.mod_eq_of_lt (by omega)] at h1
    omega
  have hb' : b' = b := by
    have h1 := congrArg (fun r => r.right.toNat) hrec
    have := hsel.second.1
    simp only [innerRec, BitVec.toNat_ofNat] at h1
    rw [Nat.mod_eq_of_lt (by omega), Nat.mod_eq_of_lt (by omega)] at h1
    omega
  subst ha' hb'
  have hold : ∀ i ∈ f.active, Rep (nodeOf (f.nodes ++ [innerRec f.nodes a' b'])) (f.nodes.length + 1) i (τ i) :=
    fun i hi => (ht.1 i hi).congr (Nat.le_succ _) fun k hk => nodeOf_append_lt hk
  have hne : ∀ i ∈ f.active, i ≠ f.nodes.length := fun i hi => by have := ((hg.active i).1 hi).1; omega
  have hsub : ∀ i ∈ (f.active.erase a').erase b', i ∈ f.active := fun i hi =>
    List.mem_of_mem_erase (List.mem_of_mem_erase hi)
  have hperm : f.active.Perm (a' :: b' :: (f.active.erase a').erase b') :=
    (List.perm_cons_erase ha).trans ((List.perm_cons_erase hb).cons a')
  refine ⟨fun i => if i = f.nodes.length then .node (τ a') (τ b') else τ i, ?_, ?_, ?_⟩
  · intro i hi
    simp only [List.length_append, List.length_singleton]
    rcases List.mem_append.1 hi with hi | hi
    · rw [if_neg (hne i (hsub i hi))]; exact hold i (hsub i hi)
    · rw [List.mem_singleton.1 hi, if_pos rfl]
      have hsum := hsel.sum
      rw [weightAt_append_lt hla, weightAt_append_lt hlb, weightAt_eq, weightAt_eq, weightAt_eq,
        (ht.1 a' ha).weight_eq, (ht.1 b' hbm.2).weight_eq] at hsum
      exact .node (by omega) (by rw [nodeOf_append_self]; rfl)
        (by rw [nodeOf_append_self, ha9]; exact hold a' ha)
        (by rw [nodeOf_append_self, hb9]; exact hold b' hbm.2) hsum
  · rw [List.flatMap_append]
    have hkeep : ((f.active.erase a').erase b').flatMap
        (fun i => (if i = f.nodes.length then HTree.node (τ a') (τ b') else τ i).leaves) =
        ((f.active.erase a').erase b').flatMap fun i => (τ i).leaves := by
      apply List.flatMap_congr
      intro i hi
      rw [if_neg (hne i (hsub i hi))]
    rw [hkeep]
    have := (hperm.flatMap_right fun i => (τ i).leaves).symm.trans ht.2.1
    simp only [List.flatMap_cons, List.flatMap_nil, List.append_nil, if_true, HTree.leaves] at this ⊢
    rw [← List.append_assoc] at this
    exact List.perm_append_comm.trans this
  · have hkeep : ((f.active.erase a').erase b').map
        (fun i => (if i = f.nodes.length then HTree.node (τ a') (τ b') else τ i).inner) =
        ((f.active.erase a').erase b').map fun i => (τ i).inner := by
      apply List.map_congr_left
      intro i hi
      rw [if_neg (hne i (hsub i hi))]
    have hold' := (hperm.map fun i => (τ i).inner).sum_eq
    rw [ht.2.2] at hold'
    have hlonger := hg.longer
    have hnew : (f.nodes ++ [innerRec f.nodes a' b']).length - es.length = (f.nodes.length - es.length) + 1 := by
      simp only [List.length_append, List.length_singleton]; omega
    have hsum := hsel.sum
    rw [weightAt_append_lt hla, weightAt_append_lt hlb, weightAt_eq _ a', weightAt_eq _ b',
      (ht.1 a' ha).weight_eq, (ht.1 b' hbm.2).weight_eq] at hsum
    dsimp only at hsum
    have hprev : ((List.range' es.length (f.nodes.length - es.length)).map fun j =>
        (weightAt (f.nodes ++ [innerRec f.nodes a' b']) j).toNat) =
        (List.range' es.length (f.nodes.length - es.length)).map fun j => (weightAt f.nodes j).toNat := by
      apply List.map_congr_left
      intro j hj
      rw [weightAt_append_lt (by rw [List.mem_range'_1] at hj; omega)]
    rw [List.map_append, List.sum_append, hkeep, hnew, List.range'_1_concat, List.map_append, List.sum_append, hprev]
    simp only [List.map_cons, List.map_nil, List.sum_cons, List.sum_nil, if_true, HTree.inner] at hold' ⊢
    rw [show es.length + (f.nodes.length - es.length) = f.nodes.length by omega]
    omega

theorem mergeRounds_trees {es : List (Symbol × Word)} (hes : es.length ≤ 256) (k : Nat) {f : Forest} (hg : f.Good es)
    (hl : f.active.length = k + 1) (ht : ∃ τ, f.HoldsTrees es τ) : ∃ τ, (mergeRounds k f).HoldsTrees es τ := by
  induction k generalizing f with
  | zero => exact ht
  | succ k ih =>
    obtain ⟨τ, ht⟩ := ht
    obtain ⟨h1, h2⟩ := mergeRound_good hes hg (by omega)
    exact ih h1 (by omega) (mergeRound_trees hes hg (by omega) ht)

/-- The finished store holds one tree at ROOT, whose leaves are the entries of the frequency table, each once (R127 to
R129). -/
theorem huffman_tree (freq : Vector Word 256) (h : presentEntries freq ≠ []) :
    ∃ T, Rep (nodeOf (huffmanNodes freq)) (huffmanNodes freq).length (huffmanRoot freq) T ∧
      T.leaves.Perm ((presentEntries freq).map fun e => (e.1, e.2.toNat)) ∧
      T.inner = ((List.range' (presentEntries freq).length ((presentEntries freq).length - 1)).map fun j =>
        (weightAt (huffmanNodes freq) j).toNat).sum := by
  have hpos : 0 < (presentEntries freq).length := List.length_pos_iff.2 h
  obtain ⟨τ, h1, h2, h3⟩ := mergeRounds_trees (presentEntries_length_le freq) ((presentEntries freq).length - 1)
    (leafForest_good freq) (by simp [leafForest]; omega) (leafForest_trees freq)
  obtain ⟨r, hr⟩ := List.length_eq_one_iff.1 (huffmanForest_good freq h).2
  refine ⟨τ r, ?_, ?_, ?_⟩
  · have := h1 r (by rw [← huffmanForest, hr]; simp)
    rw [huffmanRoot, hr]; exact this
  · rw [← huffmanForest, hr] at h2; simpa using h2
  · have hlen := huffmanNodes_length freq h
    rw [← huffmanForest, hr] at h3
    rw [show (presentEntries freq).length - 1 = (huffmanNodes freq).length - (presentEntries freq).length by omega]
    simpa [huffmanNodes] using h3

/-! ### The walk (R144) -/

/-- The walk over a tree writes the code of each leaf, in the order of its paths. -/
theorem walk_rep {node : Vector NodeRec 511} {N j : Nat} {T : HTree}
    (h : Rep (fun k => nodeAt node (BitVec.ofNat 9 k)) N j T) :
    ∀ d path t, T.leaves.length ≤ d →
      walk node d (BitVec.ofNat 9 j) path t = T.paths.foldl (fun t e => t.put e.1 (path ++ e.2)) t := by
  induction h with
  | @leaf i hi hl =>
    intro d path t hd
    cases d with
    | zero => simp [HTree.leaves] at hd
    | succ d => simp [walk, hl, HTree.paths]
  | @node i l r hi hl _ _ hw ihl ihr =>
    intro d path t hd
    have hlp := l.leaves_pos
    have hrp := r.leaves_pos
    cases d with
    | zero => simp only [HTree.leaves, List.length_append] at hd; omega
    | succ d =>
      simp only [HTree.leaves, List.length_append] at hd
      simp only [BitVec.ofNat_toNat, BitVec.setWidth_eq] at ihl ihr
      rw [walk, if_neg (by simp [hl]), ihl d _ _ (by omega), ihr d _ _ (by omega)]
      simp only [HTree.paths, List.foldl_append, List.foldl_map, List.append_assoc, List.singleton_append]

/-- What a list of code-table writes leaves, when no symbol is written twice. -/
theorem foldl_put {L : List (Symbol × List Bool)} (hn : (L.map Prod.fst).Nodup) (t : CodeTable) (s : Symbol) :
    (∀ p, (s, p) ∈ L →
      codeLenAt (L.foldl (fun t e => t.put e.1 e.2) t).len s = BitVec.ofNat 8 p.length ∧
      codeValAt (L.foldl (fun t e => t.put e.1 e.2) t).val s = BitVec.ofNat 256 (pathValue p)) ∧
    (s ∉ L.map Prod.fst →
      codeLenAt (L.foldl (fun t e => t.put e.1 e.2) t).len s = codeLenAt t.len s ∧
      codeValAt (L.foldl (fun t e => t.put e.1 e.2) t).val s = codeValAt t.val s) := by
  induction L generalizing t with
  | nil => simp
  | cons e L ih =>
    simp only [List.map_cons, List.nodup_cons] at hn
    obtain ⟨ih1, ih2⟩ := ih hn.2 (t.put e.1 e.2)
    simp only [List.foldl_cons]
    constructor
    · intro p hp
      rcases List.mem_cons.1 hp with rfl | hp
      · have := ih2 hn.1
        simpa [CodeTable.put] using this
      · exact ih1 p hp
    · intro hs
      simp only [List.map_cons, List.mem_cons, not_or] at hs
      have := ih2 hs.2
      rw [this.1, this.2]
      exact ⟨codeLenAt_write_other _ _ hs.1, codeValAt_write_other _ _ hs.1⟩

/-! ### The value of a path (R12) -/

theorem pathValue_append (p : List Bool) (b : Bool) : pathValue (p ++ [b]) = 2 * pathValue p + b.toNat := by
  simp [pathValue]

/-- "`CODE_VAL[s] < 2^CODE_LEN[s]`" (R150). -/
theorem pathValue_lt (p : List Bool) : pathValue p < 2 ^ p.length := by
  induction p using List.reverseRecOn with
  | nil => simp [pathValue]
  | append_singleton p b ih =>
    rw [pathValue_append, List.length_append, List.length_singleton, Nat.pow_succ]
    have := b.toNat_le
    omega

/-- The first edge is bit len − 1 and the last is bit 0 (R12). -/
theorem pathValue_testBit (p : List Bool) (k : Nat) (hk : k < p.length) :
    (pathValue p).testBit (p.length - 1 - k) = p[k] := by
  induction p using List.reverseRecOn generalizing k with
  | nil => simp at hk
  | append_singleton p b ih =>
    rw [pathValue_append]
    simp only [List.length_append, List.length_singleton] at hk ⊢
    rcases Nat.lt_succ_iff_lt_or_eq.1 hk with h | rfl
    · have e : p.length + 1 - 1 - k = (p.length - 1 - k) + 1 := by omega
      rw [e, Nat.testBit_succ, List.getElem_append_left h, ← ih k h]
      congr 1
      have := b.toNat_le
      omega
    · have e : p.length + 1 - 1 - p.length = 0 := by omega
      rw [e, Nat.testBit_zero]
      cases b <;> simp [Nat.add_mod]

end Sys2Proof.Machine
end

