-- ==== Sys2Proof/Laws/Block.lean ====
section
/-! SUPPORT. What the registers and arrays of a block hold when TREE_VALID = 1 and when CODES_VALID = 1. -/

namespace Sys2Proof.Machine

/-! ### The tree in the node store (R36.4) -/

theorem nodeAt_of_getElem? {node : Vector NodeRec 511} {nodes : List NodeRec} {k : Nat} (hk : k < nodes.length)
    (h9 : nodes.length ≤ 511) (h : node[k]? = nodes[k]?) : nodeAt node (BitVec.ofNat 9 k) = nodeOf nodes k := by
  have e : (BitVec.ofNat 9 k).toNat = k := by simp only [BitVec.toNat_ofNat]; omega
  simp only [nodeAt, e, h, nodeOf, List.getElem?_eq_getElem hk, Option.getD_some]

/-- A successful BUILD_TREE leaves the tree of FREQ in the store (R122). -/
theorem Block.holdsTree_putTree (b : Block) (h : presentEntries b.freq ≠ []) : b.putTree.HoldsTree := by
  have hlen := huffmanNodes_length b.freq h
  have h9 := huffmanNodes_length_le b.freq h
  constructor
  · exact h
  · intro i hi
    simp only [Block.putTree_node, Block.putTree_freq] at hi ⊢
    exact writeNodesFrom_below _ _ hi (by omega)
  · rfl
  · rfl
  · rfl
  · simp only [Block.putTree_nodeCount, Block.putTree_freq, BitVec.toNat_ofNat, nsym_toNat]; omega

section tree

variable {b : Block} (h : b.HoldsTree)

include h

theorem Block.HoldsTree.nodeCount_toNat : b.nodeCount.toNat = (huffmanNodes b.freq).length := by
  have h9 := huffmanNodes_length_le b.freq h.present
  rw [h.nodeCount, BitVec.toNat_ofNat]; omega

theorem Block.HoldsTree.root_toNat : b.root.toNat = huffmanRoot b.freq := by
  have h9 := huffmanNodes_length_le b.freq h.present
  have := huffmanRoot_eq b.freq h.present
  rw [h.root, BitVec.toNat_ofNat]; omega

theorem Block.HoldsTree.nodeN_eq {k : Nat} (hk : k < b.nodeCount.toNat) : b.nodeN k = nodeOf (huffmanNodes b.freq) k := by
  rw [h.nodeCount_toNat] at hk
  exact nodeAt_of_getElem? hk (huffmanNodes_length_le b.freq h.present) (h.entries k hk)

/-- Leaf k holds the k-th entry of the frequency table (R120). -/
theorem Block.HoldsTree.leaf {k : Nat} (hk : k < (presentEntries b.freq).length) :
    b.nodeN k = leafRec ((presentEntries b.freq)[k]) := by
  obtain ⟨hg, -⟩ := huffmanForest_good b.freq h.present
  have hlt : k < b.nodeCount.toNat := by
    rw [h.nodeCount_toNat]; exact lt_of_lt_of_le hk hg.longer
  rw [h.nodeN_eq hlt, nodeOf, huffmanNodes, hg.leaves k hk]
  simp [hk]

/-- The tree at ROOT, as a recursive type, with the entries of the frequency table as its leaves (R127 to R129). -/
theorem Block.HoldsTree.tree : ∃ T, Rep b.nodeN b.nodeCount.toNat b.root.toNat T ∧
    T.leaves.Perm ((presentEntries b.freq).map fun e => (e.1, e.2.toNat)) ∧
    T.inner = ((List.range' (presentEntries b.freq).length ((presentEntries b.freq).length - 1)).map fun j =>
      (b.nodeN j).weight.toNat).sum := by
  obtain ⟨T, hT, hp, hi⟩ := huffman_tree b.freq h.present
  have hlen := huffmanNodes_length b.freq h.present
  refine ⟨T, ?_, hp, ?_⟩
  · rw [h.root_toNat]
    exact hT.congr (by rw [h.nodeCount_toNat]) fun k hk => h.nodeN_eq (by rw [h.nodeCount_toNat]; exact hk)
  · rw [hi]
    congr 1
    apply List.map_congr_left
    intro j hj
    rw [List.mem_range'_1] at hj
    rw [h.nodeN_eq (by rw [h.nodeCount_toNat]; omega)]; rfl

/-- The leaves GEN_CODES sums over are the entries of the frequency table (R129, R145). -/
theorem Block.HoldsTree.leavesOf_eq :
    leavesOf b.node (leafCount b.nodeCount) = (presentEntries b.freq).map leafRec := by
  have hcount : leafCount b.nodeCount = (presentEntries b.freq).length := by
    have := h.odd
    rw [nsym_toNat] at this
    rw [leafCount]; omega
  apply List.ext_getElem
  · simp [leavesOf, hcount]
  · intro k h1 h2
    have hk : k < (presentEntries b.freq).length := by simpa using h2
    have := h.leaf hk
    simpa [leavesOf, Block.nodeN] using this

/-- ≺ on the store is ≺ on the nodes BUILD_TREE made. -/
theorem Block.HoldsTree.before_iff {i j : Nat} (hi : i < b.nodeCount.toNat) (hj : j < b.nodeCount.toNat) :
    b.nodeBefore i j ↔ precedes (huffmanNodes b.freq) i j = true := by
  rw [precedes_iff, Block.nodeBefore, h.nodeN_eq hi, h.nodeN_eq hj]
  simp [weightAt_eq, BitVec.lt_def, ← BitVec.toNat_inj]

theorem Block.HoldsTree.active_iff {n j i : Nat} (hj : j < b.nodeCount.toNat) :
    b.activeAt n j i ↔ activeIn (huffmanNodes b.freq) n j i := by
  have he : ∀ k, k < j → b.nodeN k = nodeOf (huffmanNodes b.freq) k := fun k hk => h.nodeN_eq (by omega)
  constructor <;> rintro ⟨h1, h2⟩ <;> refine ⟨h1, fun k hk hkj => ?_⟩ <;> have := h2 k hk hkj
  · rwa [he k hkj] at this
  · rw [he k hkj]; exact this

/-- Every internal node of the store has two different children below it, selected as R118 says. -/
theorem Block.HoldsTree.selected {j : Nat} (h1 : (presentEntries b.freq).length ≤ j) (h2 : j < b.nodeCount.toNat) :
    ∃ l r, Selected (huffmanNodes b.freq) (presentEntries b.freq).length j l r ∧
      b.nodeN j = innerRec (huffmanNodes b.freq) l r ∧
      (b.nodeN j).left.toNat = l ∧ (b.nodeN j).right.toNat = r ∧ l < j ∧ r < j ∧ l ≠ r := by
  obtain ⟨hg, -⟩ := huffmanForest_good b.freq h.present
  have h9 := huffmanNodes_length_le b.freq h.present
  have hj := h2
  rw [h.nodeCount_toNat] at h2
  obtain ⟨l, r, hs⟩ := hg.inner j h1 h2
  have hl := hs.first.1
  have hr := hs.second.1
  have e : b.nodeN j = innerRec (huffmanNodes b.freq) l r := by rw [h.nodeN_eq hj]; exact hs.record
  refine ⟨l, r, hs, e, ?_, ?_, hl, hr, ?_⟩
  · rw [e]; simp only [innerRec, BitVec.toNat_ofNat]; omega
  · rw [e]; simp only [innerRec, BitVec.toNat_ofNat]; omega
  · rintro rfl
    have := hs.order
    rw [precedes_iff] at this; omega

end tree

/-! ### The code table (R145) -/

/-- Every symbol's entry of the code table of a tree of more than one leaf: the path to its leaf, or nothing. -/
theorem codeTableOf_node {node : Vector NodeRec 511} {N : Nat} {root : NodeIdx} {l r : HTree}
    (h : Rep (fun k => nodeAt node (BitVec.ofNat 9 k)) N root.toNat (.node l r))
    (hn : ((HTree.node l r).leaves.map Prod.fst).Nodup) (hle : (HTree.node l r).leaves.length ≤ 256) (s : Symbol) :
    (∀ p, (s, p) ∈ (HTree.node l r).paths →
      codeLenAt (codeTableOf node root).len s = BitVec.ofNat 8 p.length ∧
      codeValAt (codeTableOf node root).val s = BitVec.ofNat 256 (pathValue p)) ∧
    (s ∉ (HTree.node l r).leaves.map Prod.fst →
      codeLenAt (codeTableOf node root).len s = 0 ∧ codeValAt (codeTableOf node root).val s = 0) := by
  have hleaf : (nodeAt node root).isLeaf = false := by
    cases h with
    | node _ hl => simpa using hl
  have hwalk := walk_rep h 256 [] CodeTable.empty hle
  simp only [BitVec.ofNat_toNat, BitVec.setWidth_eq, List.nil_append] at hwalk
  rw [codeTableOf, if_neg (by simp [hleaf]), hwalk]
  rw [← HTree.paths_symbols] at hn ⊢
  obtain ⟨h1, h2⟩ := foldl_put hn CodeTable.empty s
  refine ⟨h1, fun hs => ?_⟩
  obtain ⟨e1, e2⟩ := h2 hs
  rw [e1, e2]
  simp [CodeTable.empty, codeLenAt, codeValAt]

/-- The code table of a tree of one leaf: the code "0" (R146). -/
theorem codeTableOf_leaf {node : Vector NodeRec 511} {root : NodeIdx} (h : (nodeAt node root).isLeaf = true) (s : Symbol) :
    (s = (nodeAt node root).sym → codeLenAt (codeTableOf node root).len s = 1 ∧
      codeValAt (codeTableOf node root).val s = 0) ∧
    (s ≠ (nodeAt node root).sym → codeLenAt (codeTableOf node root).len s = 0 ∧
      codeValAt (codeTableOf node root).val s = 0) := by
  rw [codeTableOf, if_pos h]
  constructor
  · rintro rfl; simp [CodeTable.put, pathValue]
  · intro hs
    simp only [CodeTable.put]
    rw [codeLenAt_write_other _ _ hs, codeValAt_write_other _ _ hs]
    simp [CodeTable.empty, codeLenAt, codeValAt]

/-- Everything the code table of a block with a tree holds, by the tree T at its root (R141 to R146). -/
structure CodeFacts (b : Block) (T : HTree) (len : Vector (BitVec 8) 256) (val : Vector (BitVec 256) 256) : Prop where
  rep    : Rep b.nodeN b.nodeCount.toNat b.root.toNat T
  leaves : T.leaves.Perm ((presentEntries b.freq).map fun e => (e.1, e.2.toNat))
  inner  : T.inner = ((List.range' (presentEntries b.freq).length ((presentEntries b.freq).length - 1)).map fun j =>
    (b.nodeN j).weight.toNat).sum
  shape  : 2 ≤ (presentEntries b.freq).length → ∃ l r, T = .node l r
  many   : 2 ≤ (presentEntries b.freq).length → ∀ s p, (s, p) ∈ T.paths →
    codeLenAt len s = BitVec.ofNat 8 p.length ∧ codeValAt val s = BitVec.ofNat 256 (pathValue p)
  one    : (presentEntries b.freq).length = 1 → ∀ s, s ∈ presentSymbols b.freq →
    codeLenAt len s = 1 ∧ codeValAt val s = 0
  absent : ∀ s, s ∉ presentSymbols b.freq → codeLenAt len s = 0 ∧ codeValAt val s = 0

/-- The symbols of the tree's leaves are the present symbols (R129). -/
theorem leaf_symbols {freq : Vector Word 256} {T : HTree}
    (h : T.leaves.Perm ((presentEntries freq).map fun e => (e.1, e.2.toNat))) :
    (T.leaves.map Prod.fst).Perm (presentSymbols freq) := by
  have := h.map Prod.fst
  rw [List.map_map] at this
  exact this

theorem Block.HoldsTree.codeFacts {b : Block} (h : b.HoldsTree) :
    ∃ T, CodeFacts b T (codeTableOf b.node b.root).len (codeTableOf b.node b.root).val := by
  obtain ⟨T, hT, hp, hin⟩ := h.tree
  have hs := leaf_symbols hp
  have hnd := hs.nodup_iff.2 (presentSymbols_nodup b.freq)
  have hlen : T.leaves.length = (presentEntries b.freq).length := by simpa using hp.length_eq
  have hle : T.leaves.length ≤ 256 := hlen ▸ presentEntries_length_le _
  have hroot : nodeAt b.node b.root = b.nodeN b.root.toNat := by simp [Block.nodeN]
  refine ⟨T, ?_⟩
  have rep := hT
  cases T with
  | leaf s' w =>
    have h1 : (presentEntries b.freq).length = 1 := by rw [← hlen]; rfl
    have hmem : ∀ s, s ∈ presentSymbols b.freq ↔ s = s' := fun s => by
      rw [← hs.mem_iff]; simp [HTree.leaves]
    cases hT with
    | leaf hi hl =>
      rw [← hroot] at hl hmem
      exact ⟨rep, hp, hin, by omega, by omega, fun _ s hm => (codeTableOf_leaf hl s).1 ((hmem s).1 hm),
        fun s hm => (codeTableOf_leaf hl s).2 fun e => hm ((hmem s).2 e)⟩
  | node l r =>
    have hl := l.leaves_pos
    have hr := r.leaves_pos
    simp only [HTree.leaves, List.length_append] at hlen
    exact ⟨rep, hp, hin, fun _ => ⟨l, r, rfl⟩, fun _ s p hm => (codeTableOf_node hT hnd hle s).1 p hm, by omega,
      fun s hm => (codeTableOf_node hT hnd hle s).2 fun hh => hm (hs.mem_iff.1 hh)⟩

/-- The bits of a stored code are the path it was stored from (R12, R142). -/
theorem codeBits_of_path (p : List Bool) (h : p.length < 256) :
    ((List.range (BitVec.ofNat 8 p.length).toNat).map fun k =>
      (BitVec.ofNat 256 (pathValue p)).getLsbD ((BitVec.ofNat 8 p.length).toNat - 1 - k)) = p := by
  have e : (BitVec.ofNat 8 p.length).toNat = p.length := by simp only [BitVec.toNat_ofNat]; omega
  rw [e]
  apply List.ext_getElem
  · simp
  · intro k h1 h2
    have hlt : p.length - 1 - k < 256 := by omega
    simp only [List.getElem_map, List.getElem_range, BitVec.getLsbD_ofNat, hlt, decide_true, Bool.true_and]
    exact pathValue_testBit p k h2

end Sys2Proof.Machine
end

