-- ==== Sys2Proof/Laws/Bus.lean ====
section
/-! SUPPORT. The register map and the host's accesses. -/

namespace Sys2Proof.Machine

/-- Every register is found at its own offset (R16). -/
@[simp] theorem regAt_regOffset (r : Reg) : regAt (regOffset r) = some r := by
  cases r with
  | codeBits k => revert k; decide
  | reserved k => revert k; decide
  | _ => rfl

/-- The offsets that name a register are the aligned ones inside 0x00..0x7C (R50). -/
theorem regAt_isSome (off : Nat) : (regAt off).isSome = (off % 4 == 0 && decide (off ≤ 0x7C)) := by
  by_cases h : off ≤ 0x7C
  · have : ∀ n, n ≤ 0x7C → (regAt n).isSome = (n % 4 == 0 && decide (n ≤ 0x7C)) := by decide
    exact this off h
  · have hn : regAt off = none := by
      unfold regAt
      split <;> first | rfl | omega
    simp [hn, h]

theorem accessReg_isSome (off bytes : Nat) : (accessReg off bytes).isSome = wellFormedAccess off bytes := by
  unfold accessReg wellFormedAccess
  split
  · next h => subst h; simp [regAt_isSome]
  · next h => simp [h]

@[simp] theorem accessReg_regOffset (r : Reg) : accessReg (regOffset r) 4 = some r := by simp [accessReg]

/-- Every statement of the host notation expands into operations the spec defines (R72, R74). -/
theorem expand_wellFormed (p : Stmt) : ∀ op ∈ expand p, op.wellFormed = true := by
  have hacc : ∀ r, wellFormedAccess (regOffset r) 4 = true := fun r => by rw [← accessReg_isSome]; simp
  cases p <;> simp [expand, wrOp, rdOp, issueOp, HostOp.wellFormed, hacc]
  rintro op a - (rfl | rfl) <;> simp [hacc]

/-- A read changes no state of the block (R81). -/
@[simp] theorem hostRead_blk (r : Reg) (s : State) : (hostRead r s).blk = s.blk := rfl

@[simp] theorem hostRead_reads (r : Reg) (s : State) :
    (hostRead r s).env.reads = s.env.reads ++ [busRead s.blk (Config.draw s.env.draws) r] := by
  simp [hostRead]

@[simp] theorem hostRead_countdown (r : Reg) (s : State) : (hostRead r s).env.countdown = s.env.countdown - 1 := by
  simp [hostRead]

@[simp] theorem hostRead_resetHeld (r : Reg) (s : State) : (hostRead r s).env.resetHeld = s.env.resetHeld := by
  simp [hostRead]

@[simp] theorem hostRead_inputs (r : Reg) (s : State) : (hostRead r s).env.inputs = s.env.inputs := by
  simp [hostRead]

@[simp] theorem hostPoll_blk (rest : List Input) (s : State) : (hostPoll rest s).blk = s.blk := by
  unfold hostPoll; dsimp only; split <;> simp

/-- Bit 0 of STATUS reads 1 exactly while Busy, whatever is drawn (R20, R81). -/
theorem status_bit0 (b : Block) (draw : Word) : (busRead b draw .status).getLsbD 0 = (b.phase == .busy) := by
  cases h : b.phase
  · simp only [busRead, h, idleWord, statusWord]
    exact (BitVec.getLsbD_append (i := 0)).trans (by simp)
  · simp only [busRead, h, busyWord]
    exact (BitVec.getLsbD_append (i := 0)).trans (by simp)

/-- What a host write does to the block, by the register it names (R82). -/
theorem busWrite_cases (b : Block) (r : Reg) (v : Word) :
    (r = .cmd ∧ b.phase = .idle ∧ busWrite b r v = b.accept v) ∨
    (r = .cmd ∧ b.phase = .busy ∧ busWrite b r v = b.reject) ∨
    (r = .arg ∧ busWrite b r v = b.writeArg v) ∨
    (r ≠ .cmd ∧ r ≠ .arg ∧ busWrite b r v = b) := by
  cases r <;> simp [busWrite]
  cases h : b.phase <;> simp

end Sys2Proof.Machine
end

