-- ==== Sys2Proof/Laws/Decode.lean ====
section
/-! SUPPORT. The fields of a word, of an encoded command, and of a word that decodes to a command. -/

namespace Sys2Proof

/-- The bits of a word written as its three fields, first the OP bits, then the SYM bits, then the RSV bits. -/
theorem fields_getLsbD (r : BitVec 16) (s o : BitVec 8) (i : Nat) :
    BitVec.getLsbD (w := 32) (r ++ s ++ o) i =
      if i < 8 then o.getLsbD i else if i < 16 then s.getLsbD (i - 8) else r.getLsbD (i - 16) := by
  refine (BitVec.getLsbD_append (x := r ++ s) (y := o) (i := i)).trans ?_
  by_cases h8 : i < 8
  · simp [h8]
  · by_cases h16 : i < 16
    · have h2 : i - 8 < 8 := by omega
      simp only [h8, h16, if_true, if_false]
      exact (BitVec.getLsbD_append (x := r) (y := s) (i := i - 8)).trans (if_pos h2)
    · have h2 : ¬ i - 8 < 8 := by omega
      have h3 : i - 8 - 8 = i - 16 := by omega
      simp only [h8, h16, if_false]
      exact (BitVec.getLsbD_append (x := r) (y := s) (i := i - 8)).trans ((if_neg h2).trans (by rw [h3]))

theorem opField_getLsbD (w : Word) (i : Nat) : (opField w).getLsbD i = (decide (i < 8) && w.getLsbD i) := by
  simp only [opField, BitVec.getLsbD_extractLsb', Nat.zero_add]

theorem symField_getLsbD (w : Word) (i : Nat) : (symField w).getLsbD i = (decide (i < 8) && w.getLsbD (8 + i)) := by
  simp only [symField, BitVec.getLsbD_extractLsb']

theorem rsvField_getLsbD (w : Word) (i : Nat) : (rsvField w).getLsbD i = (decide (i < 16) && w.getLsbD (16 + i)) := by
  simp only [rsvField, BitVec.getLsbD_extractLsb']

@[simp] theorem opField_append (r : BitVec 16) (s o : BitVec 8) : opField (r ++ s ++ o) = o := by
  apply BitVec.eq_of_getLsbD_eq
  intro i hi
  rw [opField_getLsbD, fields_getLsbD, if_pos hi]
  simp [hi]

@[simp] theorem symField_append (r : BitVec 16) (s o : BitVec 8) : symField (r ++ s ++ o) = s := by
  apply BitVec.eq_of_getLsbD_eq
  intro i hi
  rw [symField_getLsbD, fields_getLsbD, if_neg (by omega), if_pos (by omega)]
  simp [hi]

@[simp] theorem rsvField_append (r : BitVec 16) (s o : BitVec 8) : rsvField (r ++ s ++ o) = r := by
  apply BitVec.eq_of_getLsbD_eq
  intro i hi
  rw [rsvField_getLsbD, fields_getLsbD, if_neg (by omega), if_neg (by omega)]
  simp [hi]

/-- A word is its three fields (R63). -/
theorem word_eq_fields (w : Word) : w = rsvField w ++ symField w ++ opField w := by
  apply BitVec.eq_of_getLsbD_eq
  intro i hi
  rw [fields_getLsbD, opField_getLsbD, symField_getLsbD, rsvField_getLsbD]
  by_cases h8 : i < 8
  · simp [h8]
  · by_cases h16 : i < 16
    · have e : 8 + (i - 8) = i := by omega
      have h : i - 8 < 8 := by omega
      simp [h8, h16, e, h]
    · have e : 16 + (i - 16) = i := by omega
      have h : i - 16 < 16 := by omega
      simp [h8, h16, e, h]

@[simp] theorem opField_encode (i : Instr) : opField (encode i) = i.opcode := by simp [encode]

@[simp] theorem symField_encode (i : Instr) : symField (encode i) = i.sym?.getD 0 := by simp [encode]

@[simp] theorem rsvField_encode (i : Instr) : rsvField (encode i) = 0 := by simp [encode]

/-- The one case split on the opcode map: it answers a command exactly when the opcode is that command's, and the symbol
of a command that takes one is the SYM field. -/
theorem decodeOp_command {op : BitVec 8} {sym : Symbol} {i : Instr} (h : decodeOp op sym = .command i) :
    op = i.opcode ∧ ∀ s, i.sym? = some s → sym = s := by
  have hop : ∀ n : Nat, op.toNat = n → n < 256 → op = BitVec.ofNat 8 n := by
    rintro n rfl hn
    simp
  unfold decodeOp at h
  split at h <;> first
    | (next e => injection h with h; subst h; exact ⟨hop _ e (by decide), by simp [Instr.sym?]⟩)
    | cases h

theorem decode_command_fields {w : Word} {i : Instr} (h : decode w = .command i) :
    rsvField w = 0 ∧ opField w = i.opcode ∧ ∀ s, i.sym? = some s → symField w = s := by
  unfold decode at h
  split at h
  · cases h
  · next hr => exact ⟨by simpa using hr, decodeOp_command h⟩

end Sys2Proof
end

