-- ==== Sys2Proof/Laws/Inv.lean ====
section
/-! SUPPORT. What each shared operation does to the invariants of R36. -/

namespace Sys2Proof.Machine

variable {b : Block}

/-- An operation that touches nothing the invariants speak of, but for ERR_ACC and the phase. -/
theorem Block.Inv.of_same {c : Block} (h : b.Inv) (hcodes : c.codesValid = true → c.HoldsCodes)
    (hflags : c.treeValid = b.treeValid ∧ c.codesValid = b.codesValid)
    (htree : c.root = b.root ∧ c.nodeCount = b.nodeCount ∧ c.total = b.total ∧ c.freq = b.freq ∧ c.node = b.node)
    (hlen : c.wlen = b.wlen ∧ c.maxLen = b.maxLen)
    (herr : c.err = 0 ∨ c.err = 1 ∨ c.err = 2 ∨ c.err = 4 ∨ c.err = 6)
    (hacc : c.errAcc.getLsbD 0 = false ∧ c.errAcc.getLsbD 3 = false) : c.Inv := by
  obtain ⟨hf1, hf2⟩ := hflags
  obtain ⟨h1, h2, h3, h4, h5⟩ := htree
  obtain ⟨hl1, hl2⟩ := hlen
  constructor
  · rw [hf1, hf2]; exact h.codesTree
  · rw [hf1, h1, h2, h3]; exact h.noTree
  · rw [hf2, hl1, hl2]; exact h.noCodes
  · intro ht
    obtain ⟨t1, t2, t3, t4, t5, t6⟩ := h.holdsTree (hf1 ▸ ht)
    constructor <;> simp only [h1, h2, h3, h4, h5] <;> assumption
  · exact hcodes
  · exact herr
  · exact hacc

/-- A completion keeps the invariants; codes 3 and 5 are never its code (R23, R169). -/
theorem Block.Inv.finish (h : b.Inv) {c : ErrCode} (h3 : c ≠ .alphabetOverflow) (h5 : c ≠ .busyReject) :
    (b.finish c).Inv := by
  refine h.of_same (fun hc => ?_) ⟨rfl, rfl⟩ ⟨rfl, rfl, rfl, rfl, rfl⟩ ⟨rfl, rfl⟩ ?_ ?_
  · show (b.putCodes).finish c = b.finish c
    rw [h.holdsCodes hc]
  · cases c <;> simp [ErrCode.code] at *
  · have := h.accBits
    simp only [Block.finish_errAcc, raiseAcc_getLsbD, this.1, this.2]
    cases c <;> simp [ErrCode.code] at *

/-- A write to FREQ followed by `invalidate()` keeps them (R100). -/
theorem Block.Inv.invalidate (h : b.Inv) (freq : Vector Word 256) : ({ b with freq := freq }.invalidate).Inv := by
  constructor <;> first | exact h.errCode | exact h.accBits | simp

/-- BUILD_TREE's effect keeps them (R122). -/
theorem Block.Inv.putTree (h : b.Inv) (hp : presentEntries b.freq ≠ []) : b.putTree.Inv := by
  constructor <;> first
    | exact h.errCode
    | exact h.accBits
    | exact fun _ => Block.holdsTree_putTree b hp
    | simp

/-- GEN_CODES's effect keeps them (R145). -/
theorem Block.Inv.putCodes (h : b.Inv) (ht : b.treeValid = true) : b.putCodes.Inv := by
  constructor
  · exact fun _ => ht
  · simp [ht]
  · simp
  · intro _
    obtain ⟨t1, t2, t3, t4, t5, t6⟩ := h.holdsTree ht
    exact ⟨t1, t2, t3, t4, t5, t6⟩
  · exact fun _ => rfl
  · exact h.errCode
  · exact h.accBits

/-- The result registers are none of their business (R29). -/
theorem Block.Inv.setResults (h : b.Inv) (r0 r1 info : Word) (bits : Vector Word 8) :
    (b.setResults r0 r1 info bits).Inv := by
  refine h.of_same (fun hc => ?_) ⟨rfl, rfl⟩ ⟨rfl, rfl, rfl, rfl, rfl⟩ ⟨rfl, rfl⟩ h.errCode h.accBits
  show (b.putCodes).setResults r0 r1 info bits = _
  rw [h.holdsCodes hc]

/-- Acceptance keeps them (R83). -/
theorem Block.Inv.accept (h : b.Inv) (v : Word) : (b.accept v).Inv := by
  refine h.of_same (fun hc => ?_) ⟨rfl, rfl⟩ ⟨rfl, rfl, rfl, rfl, rfl⟩ ⟨rfl, rfl⟩ h.errCode ?_
  · show (b.putCodes).accept v = _
    rw [h.holdsCodes hc]
  · simp only [Block.accept_errAcc]
    split
    · simp
    · exact h.accBits

/-- A rejection keeps them (R85). -/
theorem Block.Inv.reject (h : b.Inv) : b.reject.Inv := by
  refine h.of_same (fun hc => ?_) ⟨rfl, rfl⟩ ⟨rfl, rfl, rfl, rfl, rfl⟩ ⟨rfl, rfl⟩ h.errCode ?_
  · show (b.putCodes).reject = _
    rw [h.holdsCodes hc]
  · have := h.accBits
    simp only [Block.reject_errAcc, raiseAcc_getLsbD, this.1, this.2]
    decide

/-- A write to ARG keeps them (R82). -/
theorem Block.Inv.writeArg (h : b.Inv) (v : Word) : (b.writeArg v).Inv := by
  refine h.of_same (fun hc => ?_) ⟨rfl, rfl⟩ ⟨rfl, rfl, rfl, rfl, rfl⟩ ⟨rfl, rfl⟩ h.errCode h.accBits
  show (b.putCodes).writeArg v = _
  rw [h.holdsCodes hc]

end Sys2Proof.Machine
end

