-- ==== Sys2Proof/Laws/PerInstr.lean ====
section
/-! SUPPORT. Statements made per command: `EncodedFields`, the three fields of its word (R63, R66). -/

namespace Sys2Proof.Laws.EncodedFields

/-- The word of a command has its opcode in OP, its symbol (or 0) in SYM and 0 in RSV. -/
def Statement (i : Instr) : Prop :=
  opField (encode i) = i.opcode ∧ symField (encode i) = i.sym?.getD 0 ∧ rsvField (encode i) = 0

theorem nop : Statement .nop := ⟨opField_encode _, symField_encode _, rsvField_encode _⟩

theorem clear : Statement .clear := ⟨opField_encode _, symField_encode _, rsvField_encode _⟩

theorem countByte (s : Symbol) : Statement (.countByte s) := ⟨opField_encode _, symField_encode _, rsvField_encode _⟩

theorem setFreq (s : Symbol) : Statement (.setFreq s) := ⟨opField_encode _, symField_encode _, rsvField_encode _⟩

theorem readFreq (s : Symbol) : Statement (.readFreq s) := ⟨opField_encode _, symField_encode _, rsvField_encode _⟩

theorem buildTree : Statement .buildTree := ⟨opField_encode _, symField_encode _, rsvField_encode _⟩

theorem readNode : Statement .readNode := ⟨opField_encode _, symField_encode _, rsvField_encode _⟩

theorem genCodes : Statement .genCodes := ⟨opField_encode _, symField_encode _, rsvField_encode _⟩

theorem readCode (s : Symbol) : Statement (.readCode s) := ⟨opField_encode _, symField_encode _, rsvField_encode _⟩

end Sys2Proof.Laws.EncodedFields
end

