-- ==== Sys2Proof/Laws/Step.lean ====
section
/-! SUPPORT. What a step can do, said once. -/

namespace Sys2Proof.Machine

/-- The `run` of a command (R84). -/
def runOf : Instr → Block → Run
  | .nop, b => runNop b
  | .clear, b => runClear b
  | .countByte s, b => runCountByte s b
  | .setFreq s, b => runSetFreq s b
  | .readFreq s, b => runReadFreq s b
  | .buildTree, b => runBuildTree b
  | .readNode, b => runReadNode b
  | .genCodes, b => runGenCodes b
  | .readCode s, b => runReadCode s b

/-- Every command answers a next state: the completion of its run (R84). -/
theorem exec_eq (i : Instr) (s : State) : exec i s = .next (s.complete (runOf i s.blk)) := by
  cases i <;> rfl

/-- The one inversion of the runs: a failing run has no effect and names its code; a successful one has the effects of
its rule, under the rule's condition. -/
theorem runOf_cases (i : Instr) (b : Block) :
    (i = .nop ∧ runOf i b = .ok b) ∨
    (i = .clear ∧ runOf i b = .ok b.clearFreq) ∨
    (∃ s, i = .countByte s ∧ freqAt b.freq s = 0xFFFFFFFF#32 ∧ runOf i b = .fail .countOverflow) ∨
    (∃ s, i = .countByte s ∧ freqAt b.freq s ≠ 0xFFFFFFFF#32 ∧
      runOf i b = .ok (b.setFreq s (freqAt b.freq s + 1))) ∨
    (∃ s, i = .setFreq s ∧ runOf i b = .ok (b.setFreq s b.curArg)) ∨
    (∃ s, i = .readFreq s ∧ runOf i b = .ok (b.setResults (freqAt b.freq s) 0 0 (Vector.replicate 8 0))) ∨
    (i = .buildTree ∧ presentEntries b.freq = [] ∧ runOf i b = .fail .emptyInput) ∨
    (i = .buildTree ∧ presentEntries b.freq ≠ [] ∧ runOf i b = .ok b.putTree) ∨
    (i = .readNode ∧ (b.treeValid = false ∨ b.nodeCount ≤ nodeOperand b.curArg) ∧ runOf i b = .fail .invalidInput) ∨
    (i = .readNode ∧ b.treeValid = true ∧ nodeOperand b.curArg < b.nodeCount ∧
      ∃ r0 r1 info bits, runOf i b = .ok (b.setResults r0 r1 info bits) ∧
        r0 = (nodeAt b.node (nodeOperand b.curArg)).weight.extractLsb' 0 32 ∧
        r1 = ((nodeAt b.node (nodeOperand b.curArg)).weight.extractLsb' 32 8).setWidth 32 ∧
        info = nodeInfoWord (nodeAt b.node (nodeOperand b.curArg)) ∧ bits = Vector.replicate 8 0) ∨
    (i = .genCodes ∧ b.treeValid = false ∧ runOf i b = .fail .invalidInput) ∨
    (i = .genCodes ∧ b.treeValid = true ∧ runOf i b = .ok b.putCodes) ∨
    (∃ s, i = .readCode s ∧ b.codesValid = false ∧ runOf i b = .fail .invalidInput) ∨
    (∃ s, i = .readCode s ∧ b.codesValid = true ∧
      runOf i b = .ok (b.setResults ((codeLenAt b.codeLen s).setWidth 32) 0 0
        (Vector.ofFn fun k => codeWord (codeValAt b.codeVal s) k.val))) := by
  cases i with
  | nop => simp [runOf, runNop]
  | clear => simp [runOf, runClear]
  | countByte s => by_cases h : freqAt b.freq s = 0xFFFFFFFF#32 <;> simp [runOf, runCountByte, h]
  | setFreq s => simp [runOf, runSetFreq, freqOperand]
  | readFreq s => simp [runOf, runReadFreq]
  | buildTree => by_cases h : presentEntries b.freq = [] <;> simp [runOf, runBuildTree, h]
  | readNode =>
    cases ht : b.treeValid
    · simp [runOf, runReadNode, ht]
    · by_cases hi : b.nodeCount ≤ nodeOperand b.curArg
      · simp [runOf, runReadNode, ht, hi]
      · have hlt : nodeOperand b.curArg < b.nodeCount := by simpa using hi
        simp [runOf, runReadNode, ht, hi, hlt]
  | genCodes => cases ht : b.treeValid <;> simp [runOf, runGenCodes, ht]
  | readCode s => cases hc : b.codesValid <;> simp [runOf, runReadCode, hc]

/-- The one inversion of the step (R91): a completion, a read, a write, a poll, an edge of the reset input, or nothing. -/
theorem step_cases {s t : State} (h : step s = .next t) :
    (engineTurn s = true ∧ (∃ i, decode s.blk.curCmd = .command i ∧ t = s.complete (runOf i s.blk))) ∨
    (engineTurn s = true ∧ (∃ why, decode s.blk.curCmd = .illegal why ∧ t = s.complete (.fail .illegalCmd))) ∨
    (engineTurn s = false ∧ s.env.inputs = [] ∧ t = s) ∨
    (engineTurn s = false ∧ s.env.resetHeld = false ∧ ∃ off r rest, s.env.inputs = .host (.rd off 4) :: rest ∧
      regAt off = some r ∧ t = (hostRead r s).withInputs rest) ∨
    (engineTurn s = false ∧ s.env.resetHeld = false ∧ ∃ off v r rest, s.env.inputs = .host (.wr off 4 v) :: rest ∧
      regAt off = some r ∧ t = (hostWrite r v s).withInputs rest) ∨
    (engineTurn s = false ∧ s.env.resetHeld = false ∧ ∃ rest, s.env.inputs = .host .wait :: rest ∧
      t = hostPoll rest s) ∨
    (engineTurn s = false ∧ ∃ rest, s.env.inputs = .resetOn :: rest ∧ t = (applyReset s).withInputs rest) ∨
    (engineTurn s = false ∧ ∃ rest, s.env.inputs = .resetOff :: rest ∧ t = (releaseReset s).withInputs rest) := by
  unfold step at h
  cases ht : engineTurn s
  · rw [ht] at h
    simp only [Bool.false_eq_true, if_false] at h
    split at h
    · next e => injection h with h; exact .inr (.inr (.inl ⟨rfl, e, h.symm⟩))
    · next i rest e =>
      cases i with
      | resetOn => injection h with h; simp [e, ← h]
      | resetOff => injection h with h; simp [e, ← h]
      | host op =>
        simp only [inputStep, hostStep] at h
        split at h
        · cases h
        · next hr =>
          have hr : s.env.resetHeld = false := by simpa using hr
          cases op with
          | wait => injection h with h; simp [e, hr, ← h]
          | rd off bytes =>
            simp only [accessReg] at h
            split at h
            · next r ha =>
              injection h with h
              split at ha
              · next hb => subst hb; simp [e, hr, ha, ← h]
              · cases ha
            · cases h
          | wr off bytes v =>
            simp only [accessReg] at h
            split at h
            · next r ha =>
              injection h with h
              split at ha
              · next hb => subst hb; simp [e, hr, ha, ← h]
              · cases ha
            · cases h
  · rw [ht] at h
    simp only [if_true, engineStep] at h
    split at h
    · next i hd => rw [exec_eq] at h; injection h with h; simp [hd, ← h]
    · next why hd => injection h with h; simp [hd, ← h, runIllegal]

end Sys2Proof.Machine
end

