-- ==== Sys2Proof/Tests/Slice0.lean ====
section
/-! SUPPORT. Tests, their expected results taken from the spec's vectors (95_test_vectors.md, named at each), and one
witness for the hypotheses of each statement that has any. -/

namespace Sys2Proof.Tests

open Sys2Proof.Machine

/-! ### Small states -/

/-- The counts of "abracadabra" (V-F1). -/
def demoFreq : Vector Word 256 :=
  writeFreq (writeFreq (writeFreq (writeFreq (writeFreq Block.reset.freq 0x61 5) 0x62 2) 0x63 1) 0x64 1) 0x72 2

/-- The reset block with those counts. -/
def demo : Block := { Block.reset with freq := demoFreq }

/-- The same with its tree (V-T3), and with its codes (V-C3). -/
def demoTree : Block := demo.putTree

def demoCodes : Block := demoTree.putCodes

/-- A block about to complete the word `w` with operand `arg`. -/
def running (b : Block) (w arg : Word) : State :=
  { blk := { b with phase := .busy, curCmd := w, curArg := arg }, env := Env.reset }

/-- An idle block with one host operation to come. -/
def hostNext (b : Block) (op : HostOp) : State := { blk := b, env := { Env.reset with inputs := [.host op] } }

/-- A busy block with one host operation to come before its completion. -/
def hostWhileBusy (op : HostOp) : State :=
  { blk := { Block.reset with phase := .busy, curCmd := 0x01#32 },
    env := { Env.reset with inputs := [.host op], countdown := 1 } }

/-- The block after a step that has a next state. -/
def blkOf : Host.Outcome State Fault Refusal → Option Block
  | .next t => some t.blk
  | .fault _ => none
  | .refused _ => none

/-- The words read, after a step that has a next state. -/
def readsOf : Host.Outcome State Fault Refusal → Option (List Word)
  | .next t => some t.env.reads
  | .fault _ => none
  | .refused _ => none

/-! ### Decoding: words written out from R63 and R66, RSV then SYM then OP -/

theorem test_decode_nop : decode 0b00000000000000000000000000000000#32 = .command .nop := by decide

theorem test_decode_nop_ignores_sym : decode 0b00000000000000001010101100000000#32 = .command .nop := by decide

theorem test_decode_clear : decode 0b00000000000000000000000000000001#32 = .command .clear := by decide

theorem test_decode_countByte_a : decode 0b00000000000000000110000100000010#32 = .command (.countByte 0x61) := by decide

theorem test_decode_setFreq_c : decode 0b00000000000000000110001100000011#32 = .command (.setFreq 0x63) := by decide

theorem test_decode_readFreq_a : decode 0b00000000000000000110000100000100#32 = .command (.readFreq 0x61) := by decide

theorem test_decode_buildTree : decode 0b00000000000000000000000000010000#32 = .command .buildTree := by decide

theorem test_decode_readNode : decode 0b00000000000000000000000000010001#32 = .command .readNode := by decide

theorem test_decode_genCodes : decode 0b00000000000000000000000000100000#32 = .command .genCodes := by decide

theorem test_decode_readCode_r : decode 0b00000000000000000111001000100001#32 = .command (.readCode 0x72) := by decide

/-- V-E9, V-E10 and V-E12: two unassigned opcodes and a reserved bit. -/
theorem test_decode_illegal :
    decode 0x00000012#32 = .illegal (.unassignedOpcode 0x12) ∧ decode 0x00000022#32 = .illegal (.unassignedOpcode 0x22) ∧
    decode 0x80000000#32 = .illegal (.reservedBits 0x8000) := by decide

theorem test_decodeTableWord : decodeTableWord 32 0x00007221 = some (.readCode 0x72) := by decide

/-! ### WellFormed: one ill-formed term for each check -/

theorem test_wellFormed_refuses_halfword : (HostOp.rd 0x04 2).wellFormed = false := by decide

theorem test_wellFormed_refuses_misaligned : (HostOp.wr 0x06 4 0).wellFormed = false := by decide

theorem test_wellFormed_refuses_outside_window : (HostOp.rd 0x80 4).wellFormed = false := by decide

theorem test_wellFormed_refuses_access_during_reset :
    wellFormedInputs false [.resetOn, .host (.rd 0x08 4)] = false ∧
    wellFormedInputs false [.resetOn, .resetOff, .host (.rd 0x08 4)] = true := by decide

/-! ### The commands -/

/-- V-K1: NOP clears ERR and keeps ERR_ACC. -/
theorem test_nop : (blkOf (step (running { Block.reset with err := 2, errAcc := 0x04 } 0x00 0))).map
    (fun b => (b.err, b.errAcc, b.phase)) = some (0, 0x04, .idle) := by decide

/-- V-K2: CLEAR empties the table and drops the tree; R89 keeps the result registers. -/
theorem test_clear : (blkOf (step (running { demoTree with result0 := 7 } 0x01 0))).map
    (fun b => (freqAt b.freq 0x61, b.treeValid, b.root, b.total, b.result0)) = some (0, false, 0, 0, 7) := by decide +kernel

/-- V-F6: one below the overflow. -/
theorem test_countByte_below_overflow :
    (blkOf (step (running { Block.reset with freq := writeFreq Block.reset.freq 0x61 0xFFFFFFFE } 0x6102 0))).map
      (fun b => (freqAt b.freq 0x61, b.err)) = some (0xFFFFFFFF, 0) := by decide +kernel

/-- V-F5: the overflow. -/
theorem test_countByte_overflow :
    (blkOf (step (running { Block.reset with freq := writeFreq Block.reset.freq 0x61 0xFFFFFFFF } 0x6102 0))).map
      (fun b => (freqAt b.freq 0x61, b.err, b.errAcc)) = some (0xFFFFFFFF, 4, 0x10) := by decide +kernel

/-- V-F3: SET_FREQ 'c', and no other entry. -/
theorem test_setFreq : (blkOf (step (running demo 0x6303 0x12345678))).map
    (fun b => (freqAt b.freq 0x63, freqAt b.freq 0x62, nsym b.freq)) = some (0x12345678, 2, 5) := by decide +kernel

/-- V-F1: READ_FREQ 'a'. -/
theorem test_readFreq : (blkOf (step (running demo 0x6104 0))).map
    (fun b => (b.result0, b.result1, b.nodeInfo)) = some (5, 0, 0) := by decide +kernel

/-- V-T3: the nine records of the "abracadabra" tree, with the registers. -/
theorem test_buildTree : (blkOf (step (running demo 0x10 0))).map
    (fun b => ((List.range 9).map fun k => nodeInfoWord (b.nodeN k), treeInfoWord b, b.total)) =
    some ([0x05840000, 0x05880000, 0x058C0000, 0x05900000, 0x05C80000, 0x00000602, 0x00000801, 0x00000C05, 0x00000E00],
      0x00090008, 11) := by decide +kernel

/-- V-S3: the empty table. -/
theorem test_buildTree_empty : (blkOf (step (running Block.reset 0x10 0))).map
    (fun b => (b.err, b.errAcc, b.treeValid)) = some (1, 0x02, false) := by decide +kernel

/-- V-T8: ARG[31:9] is ignored, so ARG = 0x203 reads node 3. -/
theorem test_readNode : (blkOf (step (running demoTree 0x11 0x203))).map
    (fun b => (b.result0, b.result1, b.nodeInfo, b.err)) = some (1, 0, 0x05900000, 0) := by decide +kernel

/-- V-T8: index 9 is past the tree. -/
theorem test_readNode_past_tree : (blkOf (step (running demoTree 0x11 9))).map
    (fun b => (b.err, b.errAcc)) = some (2, 0x04) := by decide +kernel

/-- V-C3: the codes of 'a', 'b' and 'd', WLEN and MAXLEN. -/
theorem test_genCodes : (blkOf (step (running demoTree 0x20 0))).map
    (fun b => (b.codeOf 0x61, b.codeOf 0x62, b.codeOf 0x64, b.wlen, b.maxLen)) =
    some ([false], [true, true, false], [true, false, true], 23, 3) := by decide +kernel

/-- V-S2: the single symbol. -/
theorem test_genCodes_single :
    (blkOf (step (running (Block.putTree { Block.reset with freq := writeFreq Block.reset.freq 0x61 4 }) 0x20 0))).map
      (fun b => (b.codeOf 0x61, b.wlen, b.maxLen)) = some ([false], 4, 1) := by decide +kernel

/-- V-C3 and V-C12: READ_CODE 'r' and of the absent 'z'. -/
theorem test_readCode : (blkOf (step (running demoCodes 0x7221 0))).map (fun b => (b.result0, b.codeBits[0])) =
    some (3, 7) ∧ (blkOf (step (running demoCodes 0x7A21 0))).map (fun b => (b.result0, b.codeBits[0], b.err)) =
    some (0, 0, 0) := by decide +kernel

/-- V-C11: READ_CODE without codes. -/
theorem test_readCode_no_codes : (blkOf (step (running demoTree 0x6121 0))).map (fun b => (b.err, b.result0)) =
    some (2, 0) := by decide +kernel

/-- V-E13: an illegal word with OP = 0x01. -/
theorem test_illegal : (blkOf (step (running { Block.reset with errAcc := 0x02 } 0x00010001 0))).map
    (fun b => (b.err, b.errAcc)) = some (6, 0x42) := by decide

/-! ### The bus -/

/-- V-C3: STATUS at the end. -/
theorem test_read_status : readsOf (step (hostNext demoCodes (rdOp .status))) = some [0x00000506] := by decide +kernel

/-- V-R1: ID. -/
theorem test_read_id : readsOf (step (hostNext Block.reset (rdOp .id))) = some [0x48554631] := by decide

/-- V-K3: a write while Busy is rejected, after the acceptance of CLEAR emptied ERR_ACC. -/
theorem test_reject : (blkOf (step (hostWhileBusy (wrOp .cmd 0)))).map (fun b => (b.errAcc, b.curCmd, b.phase)) =
    some (0x20, 0x01, .busy) := by decide

/-- R83: CLEAR empties ERR_ACC at acceptance; V-E13: the illegal word does not. -/
theorem test_accept : (blkOf (step (hostNext { Block.reset with errAcc := 0x40, arg := 7 } (issueOp .clear)))).map
    (fun b => (b.errAcc, b.curArg, b.phase)) = some (0, 7, .busy) ∧
    (blkOf (step (hostNext { Block.reset with errAcc := 0x40 } (wrOp .cmd 0x00010001)))).map (fun b => b.errAcc) =
      some 0x40 := by decide

/-- P2: the bus operations of `SET_FREQ 'a', 5`. -/
theorem test_expand_setFreq :
    expand (.setFreq (symbolOf 'a') 5) = [.wr 0x04 4 5, .wr 0x00 4 0x00006103, .wait] := by decide

/-- R48: byte lane 0 is the low byte. -/
theorem test_byte_lanes : byteLane 0x48554631 0 = 0x31 ∧ wordOfLanes 0x31 0x46 0x55 0x48 = 0x48554631 := by decide

/-- R94: the end of a run waits for a bus operation and for the phase Idle, and not for an edge of the reset input. -/
theorem test_runEnded : runEnded (hostNext Block.reset .wait) = false ∧ runEnded (running Block.reset 0 0) = false ∧
    runEnded (State.reset.withInputs [.resetOn, .resetOff]) = true ∧
    runEnded (State.reset.withInputs [.resetOn, .resetOff, .host (rdOp .id)]) = false := by decide

/-! ### Witnesses: states that meet the hypotheses of the statements -/

theorem demo_inv : demo.Inv := by
  constructor <;> first | (intro h; cases h; done) | simp [demo, Block.reset]

theorem demoTree_inv : demoTree.Inv := demo_inv.putTree (by decide +kernel)

theorem demoCodes_inv : demoCodes.Inv := demoTree_inv.putCodes rfl

/-- A block that differs from `demo` only in what reset leaves unspecified. -/
def demoOther : Block := { demo with curCmd := 5, codeLen := Vector.replicate 256 1 }

theorem witness_DecodeEncodeRoundTrip : (Instr.countByte 0xFF).wellFormed = true ∧
    decode 0x0000FF02#32 = .command (.countByte 0xFF) ∧ decode 0x00005510#32 = .command .buildTree := by decide

theorem witness_IllegalWordFailsWithCode6 :
    (0x00000005#32).extractLsb' 0 8 ∉ [0x00#8, 0x01#8, 0x02#8, 0x03#8, 0x04#8, 0x10#8, 0x11#8, 0x20#8, 0x21#8] ∧
    (0x00010002#32).extractLsb' 16 16 ≠ 0#16 ∧
    hostTurn (hostNext Block.reset (wrOp .cmd 5)) (.wr 0x00 4 5) [] ∧
    engineTurn (running Block.reset 5 0) = true := ⟨by decide, by decide, ⟨rfl, rfl, rfl⟩, rfl⟩

theorem witness_StepRunsDecodedCommand : engineTurn (running demo 0x10 0) = true ∧
    decode (running demo 0x10 0).blk.curCmd = .command .buildTree := by decide

theorem witness_AcceptLatchesCommandAndArg :
    hostTurn (hostNext demo (wrOp .cmd 0x01)) (.wr 0x00 4 0x01) [] ∧ demo.phase = .idle := ⟨⟨rfl, rfl, rfl⟩, rfl⟩

theorem witness_RejectOnlyRecordsBusyReject :
    hostTurn (hostWhileBusy (wrOp .cmd 0)) (.wr 0x00 4 0) [] ∧ (hostWhileBusy (wrOp .cmd 0)).blk.phase = .busy :=
  ⟨⟨rfl, rfl, rfl⟩, rfl⟩

theorem witness_OtherWritesSetArgOrNothing :
    hostTurn (hostWhileBusy (wrOp .arg 9)) (.wr 0x04 4 9) [] ∧ hostTurn (hostNext demo (.wr 0x7C 4 9)) (.wr 0x7C 4 9) [] :=
  ⟨⟨rfl, rfl, rfl⟩, ⟨rfl, rfl, rfl⟩⟩

theorem witness_IdleReadReturnsRegister :
    hostTurn (hostNext demo (.rd 0x00 4)) (.rd 0x00 4) [] ∧ hostTurn (hostNext demo (.rd 0x7C 4)) (.rd 0x7C 4) [] ∧
    demo.phase = .idle := ⟨⟨rfl, rfl, rfl⟩, ⟨rfl, rfl, rfl⟩, rfl⟩

/-- One read of each kind, at the boundaries of the ranges. -/
theorem witness_BusyReadIsDrawn : ∀ off ∈ [0x00, 0x04, 0x08, 0x0C, 0x30, 0x34, 0x38, 0x3C, 0x40, 0x5C, 0x60, 0x7C],
    hostTurn (hostWhileBusy (.rd off 4)) (.rd off 4) [] ∧ (hostWhileBusy (.rd off 4)).blk.phase = .busy ∧
    off % 4 = 0 ∧ off ≤ 0x7C := by
  intro off h
  refine ⟨⟨rfl, rfl, rfl⟩, rfl, ?_⟩
  revert off; decide

theorem witness_UndefinedAccessIsRefused :
    hostTurn (hostNext demo (.rd 0x7C 4)) (.rd 0x7C 4) [] ∧ hostTurn (hostNext demo (.rd 0x80 4)) (.rd 0x80 4) [] ∧
    hostTurn (hostNext demo (.wr 0x02 4 0)) (.wr 0x02 4 0) [] ∧ hostTurn (hostNext demo (.wr 0x04 1 0)) (.wr 0x04 1 0) [] :=
  ⟨⟨rfl, rfl, rfl⟩, ⟨rfl, rfl, rfl⟩, ⟨rfl, rfl, rfl⟩, ⟨rfl, rfl, rfl⟩⟩

theorem witness_WaitPollsUntilIdle :
    hostTurn (hostNext demo .wait) .wait [] ∧ demo.phase = .idle ∧
    hostTurn (hostWhileBusy .wait) .wait [] ∧ (hostWhileBusy .wait).blk.phase = .busy :=
  ⟨⟨rfl, rfl, rfl⟩, rfl, ⟨rfl, rfl, rfl⟩, rfl⟩

/-- Reset while a command is in progress (V-R2), and an access while it is held. -/
theorem witness_ResetGivesResetValues :
    (∃ s t : State, engineTurn s = false ∧ s.blk.phase = .busy ∧ s.env.inputs = [.resetOn] ∧ step s = .next t) ∧
    (∃ s : State, s.env.resetHeld = true ∧ s.env.inputs = [.host (rdOp .id)]) := by
  refine ⟨⟨{ blk := { demo with phase := .busy }, env := { Env.reset with inputs := [.resetOn], countdown := 1 } },
    _, rfl, rfl, rfl, rfl⟩, ⟨{ blk := demo, env := { Env.reset with inputs := [.host (rdOp .id)], resetHeld := true } },
    rfl, rfl⟩⟩

theorem witness_EngineTurnComes : (hostWhileBusy .wait).blk.phase = .busy ∧ (hostWhileBusy .wait).env.resetHeld = false ∧
    wellFormedInputs false (hostWhileBusy .wait).env.inputs = true ∧
    Input.resetOn ∉ (hostWhileBusy .wait).env.inputs := by decide

theorem witness_DefinedProgramNeverStops :
    wellFormedInputs false (hostNext demo (rdOp .id)).env.inputs = true ∧
    wellFormedInputs true [.resetOff, .host (rdOp .id)] = true := by decide

theorem witness_ClearEmptiesTable :
    hostTurn (hostNext demo (.wr 0x00 4 (0#16 ++ 0xAB#8 ++ 0x01#8))) (.wr 0x00 4 (0#16 ++ 0xAB#8 ++ 0x01#8)) [] ∧
    demo.phase = .idle := ⟨⟨rfl, rfl, rfl⟩, rfl⟩

theorem witness_CountByteIncrements : freqAt demo.freq 0x61 ≠ 0xFFFFFFFF#32 ∧
    freqAt (writeFreq demo.freq 0x61 0xFFFFFFFE) 0x61 ≠ 0xFFFFFFFF#32 := by decide +kernel

theorem witness_CountByteOverflowFails : freqAt (writeFreq demo.freq 0xFF 0xFFFFFFFF) 0xFF = 0xFFFFFFFF#32 := by
  decide +kernel

theorem witness_BuildTreeEmptyTableFails : ∀ sym, freqAt Block.reset.freq sym = 0#32 := freqAt_zero

theorem witness_BuildTreeMeetsItsRules : freqAt demo.freq 0x72 ≠ 0#32 := by decide +kernel

/-- Index 8 is the last of the nine entries. -/
theorem witness_ReadNodeReturnsRecord : (running demoTree 0x11 8).blk.treeValid = true ∧
    (running demoTree 0x11 8).blk.curArg.extractLsb' 0 9 < (running demoTree 0x11 8).blk.nodeCount := by decide +kernel

theorem witness_ReadNodeOutsideTreeFails : demo.treeValid = false ∧
    (running demoTree 0x11 9).blk.nodeCount ≤ (running demoTree 0x11 9).blk.curArg.extractLsb' 0 9 := by decide +kernel

theorem witness_GenCodesWithoutTreeFails : demo.treeValid = false := rfl

theorem witness_GenCodesFrame : demoTree.treeValid = true := rfl

theorem witness_GenCodesGivesPaths : demoTree.Inv ∧ demoTree.treeValid = true ∧ freqAt demoTree.freq 0x61 ≠ 0#32 ∧
    freqAt demoTree.freq 0x7A = 0#32 ∧ demoTree.nodeCount.toNat ≠ 1 := ⟨demoTree_inv, rfl, by decide +kernel⟩

theorem witness_ReadCodeReturnsCode : demoCodes.codesValid = true := rfl

theorem witness_ReadCodeWithoutCodesFails : demoTree.codesValid = false := rfl

theorem witness_FailureIsAtomic :
    (∃ t, exec .genCodes (running demo 0x20 0) = .next t ∧ t.blk.err ≠ 0#4) ∧
    (∃ t, engineTurn (running demo 0x05 0) = true ∧ step (running demo 0x05 0) = .next t ∧ t.blk.err ≠ 0#4) :=
  ⟨⟨_, rfl, by decide⟩, ⟨_, rfl, rfl, by decide⟩⟩

theorem witness_FlagsSummary :
    (∃ t, exec .buildTree (running demo 0x10 0) = .next t) ∧
    (∃ t, engineTurn (running demo 0x05 0) = true ∧
      decode (running demo 0x05 0).blk.curCmd = .illegal (.unassignedOpcode 0x05) ∧
      step (running demo 0x05 0) = .next t) ∧
    (∃ t, hostTurn (hostWhileBusy (wrOp .cmd 0)) (.wr 0x00 4 0) [] ∧ (hostWhileBusy (wrOp .cmd 0)).blk.phase = .busy ∧
      step (hostWhileBusy (wrOp .cmd 0)) = .next t) :=
  ⟨⟨_, rfl⟩, ⟨_, rfl, rfl, rfl⟩, ⟨_, ⟨rfl, rfl, rfl⟩, rfl, rfl⟩⟩

/-- An ERR_ACC bit that stays, one a reset clears and one the acceptance of CLEAR clears. -/
theorem witness_ErrAccIsSticky :
    (∃ t, step (running { demo with errAcc := 0x02 } 0x00 0) = .next t) ∧
    (∃ t, step { blk := { demo with errAcc := 0x02 }, env := { Env.reset with inputs := [.resetOn] } } = .next t) ∧
    (∃ t, step (hostNext { demo with errAcc := 0x02 } (wrOp .cmd 0x01)) = .next t) ∧
    (0x02#7).getLsbD 1 = true := ⟨⟨_, rfl⟩, ⟨_, rfl⟩, ⟨_, rfl⟩, rfl⟩

theorem witness_OnlyTableCommandsWriteFreq :
    ∃ t, step (running demo 0x01 0) = .next t ∧ t.blk.freq ≠ demo.freq :=
  ⟨_, rfl, fun h => absurd (congrArg (fun f => freqAt f 0x61) h) (by decide +kernel)⟩

theorem witness_OnlyBuildersWriteTreeAndCodes :
    (∃ t, step (running demo 0x10 0) = .next t ∧ t.blk.node ≠ demo.node) ∧
    (∃ t, step (running demoTree 0x20 0) = .next t ∧ t.blk.codeLen ≠ demoTree.codeLen) :=
  ⟨⟨_, rfl, fun h => absurd (congrArg (fun n => nodeAt n 0) h) (by decide +kernel)⟩,
    ⟨_, rfl, fun h => absurd (congrArg (fun n => codeLenAt n 0x61) h) (by decide +kernel)⟩⟩

theorem witness_OnlyReadsWriteResults : ∃ t, step (running demo 0x6104 0) = .next t ∧
    (t.blk.result0, t.blk.result1, t.blk.nodeInfo, t.blk.codeBits) ≠
      (demo.result0, demo.result1, demo.nodeInfo, demo.codeBits) :=
  ⟨_, rfl, fun h => absurd (congrArg Prod.fst h) (by decide +kernel)⟩

theorem witness_HostChangesOnlyCommandState : ∃ t, step (hostNext demo (wrOp .arg 3)) = .next t ∧
    engineTurn (hostNext demo (wrOp .arg 3)) = false ∧
    ∀ rest, (hostNext demo (wrOp .arg 3)).env.inputs ≠ .resetOn :: rest := ⟨_, rfl, rfl, fun _ h => by cases h⟩

theorem witness_CommandsIgnoreArgRegister : ∃ t, exec (.setFreq 0x61) (running demo 0x6103 5) = .next t := ⟨_, rfl⟩

theorem witness_StaleDataIsUnreadable :
    ∃ t u, exec (.countByte 0x61) (running demoCodes 0x6102 0) = .next t ∧ execAll [.genCodes, .nop] t = .next u ∧
      freqAt demoCodes.freq 0x61 ≠ 0xFFFFFFFF#32 ∧ Instr.buildTree ∉ [Instr.genCodes, Instr.nop] ∧
      ¬ [Instr.buildTree, Instr.genCodes].Sublist [Instr.genCodes, Instr.nop] :=
  ⟨_, _, rfl, rfl, by decide +kernel, by decide, by decide⟩

theorem witness_CountingLaw : ∀ b : Symbol, [0x61#8, 0x62#8, 0x61#8].count b < 2 ^ 32 := fun b =>
  lt_of_le_of_lt List.count_le_length (by decide)

theorem witness_StepKeepsInv : demo.Inv ∧ ∃ t, step (running demo 0x10 0) = .next t := ⟨demo_inv, ⟨_, rfl⟩⟩

theorem witness_UnspecifiedStateIsUnobservable :
    demo.Inv ∧ demoOther.Inv ∧ demo.SameToHost demoOther ∧ demo.codeLen ≠ demoOther.codeLen := by
  refine ⟨demo_inv, ?_, ?_, fun h => absurd (congrArg (fun n => codeLenAt n 0) h) (by decide +kernel)⟩
  · exact demo_inv.of_same (fun h => by cases h) ⟨rfl, rfl⟩ ⟨rfl, rfl, rfl, rfl, rfl⟩ ⟨rfl, rfl⟩ demo_inv.errCode
      demo_inv.accBits
  · constructor <;> first | (intro h; cases h; done) | simp [demoOther]

/-- The hypotheses of the statements about every tree, with five present symbols (so two or more). -/
theorem witness_trees : demoTree.Inv ∧ demoTree.treeValid = true ∧ 2 ≤ (presentSymbols demoTree.freq).length ∧
    (presentSymbols demoTree.freq).length + 1 < demoTree.nodeCount.toNat := ⟨demoTree_inv, rfl, by decide +kernel⟩

/-- The hypotheses of the statements about every code table, with two or more present symbols and with one. -/
theorem witness_codes :
    (demoCodes.Inv ∧ demoCodes.codesValid = true ∧ 2 ≤ (presentSymbols demoCodes.freq).length) ∧
    (∃ b : Block, b.Inv ∧ b.codesValid = true ∧ (presentSymbols b.freq).length = 1) := by
  refine ⟨⟨demoCodes_inv, rfl, by decide +kernel⟩,
    ⟨({ demo with freq := writeFreq Block.reset.freq 0x61 4 }.invalidate).putTree.putCodes,
      ((demo_inv.invalidate _).putTree (by decide +kernel)).putCodes rfl, rfl, by decide +kernel⟩⟩

theorem witness_BuildTreeDependsOnFreqOnly : ∃ t t' : State, demo.freq = demoCodes.freq ∧
    exec .buildTree (running demo 0x10 0) = .next t ∧ exec .buildTree (running demoCodes 0x10 0) = .next t' ∧
    t.blk.err = 0#4 := ⟨_, _, rfl, rfl, rfl, by decide +kernel⟩

theorem witness_SingleSymbolCode :
    ∃ (s t u : State), presentSymbols s.blk.freq = [0x61] ∧ exec .buildTree s = .next t ∧ exec .genCodes t = .next u :=
  ⟨running { demo with freq := writeFreq Block.reset.freq 0x61 4 } 0x10 0, _, _, by decide +kernel, rfl, rfl⟩

theorem witness_CodesDependOnFreqOnly : ∃ t t' u u' : State, demo.freq = demoCodes.freq ∧
    exec .buildTree (running demo 0x10 0) = .next t ∧ exec .buildTree (running demoCodes 0x10 0) = .next t' ∧
    t.blk.err = 0#4 ∧ exec .genCodes t = .next u ∧ exec .genCodes t' = .next u' :=
  ⟨_, _, _, _, rfl, rfl, rfl, by decide +kernel, rfl, rfl⟩

/-- The optimality statement speaks of some code: the block's own. -/
theorem witness_CodesAreOptimal : ∀ s ∈ presentSymbols demoCodes.freq, ∀ t ∈ presentSymbols demoCodes.freq, s ≠ t →
    ¬ (demoCodes.codeOf s <+: demoCodes.codeOf t) := by decide +kernel

end Sys2Proof.Tests
end

section
/-! The tree in the node store, said of the store itself (42_tree_builder.md R116 to R122, R128). -/

namespace Sys2Proof.Machine

/-- `Σ_s FREQ[s]` over the present symbols is the sum over the table's entries (R101). -/
theorem totalFreq_eq_sum_entries (freq : Vector Word 256) :
    totalFreq freq = ((presentEntries freq).map fun e => e.2.toNat).sum := by
  rw [totalFreq, presentEntries_eq_map, List.map_map]; rfl

section store

variable {b : Block} (h : b.HoldsTree)

include h

/-- A completion writes nothing the tree speaks of (R84). -/
theorem Block.HoldsTree.finish (c : ErrCode) : (b.finish c).HoldsTree :=
  ⟨h.present, h.entries, h.root, h.nodeCount, h.total, h.odd⟩

/-- "NODE_COUNT = 2n − 1" (R130). -/
theorem Block.HoldsTree.nodeCount_add_one : b.nodeCount.toNat + 1 = 2 * (presentSymbols b.freq).length := by
  rw [h.odd, nsym_toNat, presentSymbols_length]

/-- ROOT is the last node made (R122). -/
theorem Block.HoldsTree.root_add_one : b.root.toNat + 1 = b.nodeCount.toNat := by
  rw [h.root_toNat, h.nodeCount_toNat, huffmanRoot_eq b.freq h.present]

theorem Block.HoldsTree.nodeN_weight {k : Nat} (hk : k < b.nodeCount.toNat) :
    (b.nodeN k).weight = weightAt (huffmanNodes b.freq) k := by
  rw [h.nodeN_eq hk, weightAt_eq]

/-- "TOTAL <- NODE[ROOT].weight" (R122). -/
theorem Block.HoldsTree.total_eq_root_weight : b.total = (b.nodeN b.root.toNat).weight := by
  have hroot := h.root_add_one
  rw [h.nodeN_weight (by omega), h.root_toNat, h.total]

/-- "TOTAL = Σ_s FREQ[s]" (R128), with no wrap. -/
theorem Block.HoldsTree.total_toNat : b.total.toNat = totalFreq b.freq := by
  rw [h.total, huffman_total b.freq h.present, totalFreq_eq_sum_entries]

/-- Leaf k is that of the k-th present symbol (R120). -/
theorem Block.HoldsTree.leaf_of_symbol {k : Nat} {s : Symbol} (hs : (presentSymbols b.freq)[k]? = some s) :
    b.nodeN k = leafRec (s, freqAt b.freq s) := by
  have hentry : (presentEntries b.freq)[k]? = some (s, freqAt b.freq s) := by
    rw [presentEntries_getElem?, hs, Option.map_some]
  obtain ⟨hk, hget⟩ := List.getElem?_eq_some_iff.1 hentry
  rw [h.leaf hk, hget]

section inner

variable {j : Nat} (h1 : (presentEntries b.freq).length ≤ j) (h2 : j < b.nodeCount.toNat)

include h1 h2

/-- An internal node's weight is its children's, added with no wrap (R7, R117). -/
theorem Block.HoldsTree.inner_weight_toNat : (b.nodeN j).weight.toNat =
    (b.nodeN (b.nodeN j).left.toNat).weight.toNat + (b.nodeN (b.nodeN j).right.toNat).weight.toNat := by
  obtain ⟨l, r, hsel, -, hleft, hright, hl, hr, -⟩ := h.selected h1 h2
  rw [hleft, hright, h.nodeN_weight h2, h.nodeN_weight (hl.trans h2), h.nodeN_weight (hr.trans h2), hsel.sum]

/-- The record of an internal node (R116). -/
theorem Block.HoldsTree.inner_record : (b.nodeN j).isLeaf = false ∧ (b.nodeN j).sym = 0 ∧
    (b.nodeN j).weight = (b.nodeN (b.nodeN j).left.toNat).weight + (b.nodeN (b.nodeN j).right.toNat).weight := by
  obtain ⟨l, r, -, hrec, hleft, hright, hl, hr, -⟩ := h.selected h1 h2
  rw [hleft, hright, h.nodeN_weight (hl.trans h2), h.nodeN_weight (hr.trans h2), hrec]
  exact ⟨rfl, rfl, rfl⟩

/-- The children of an internal node are the ≺-least active index and the next (R118, R119, R121). -/
theorem Block.HoldsTree.inner_selects_least_two :
    b.activeAt (presentEntries b.freq).length j (b.nodeN j).left.toNat ∧
    b.activeAt (presentEntries b.freq).length j (b.nodeN j).right.toNat ∧
    b.nodeBefore (b.nodeN j).left.toNat (b.nodeN j).right.toNat ∧
    ∀ i, b.activeAt (presentEntries b.freq).length j i → i ≠ (b.nodeN j).left.toNat → i ≠ (b.nodeN j).right.toNat →
      b.nodeBefore (b.nodeN j).right.toNat i := by
  obtain ⟨l, r, hsel, -, hleft, hright, hl, hr, -⟩ := h.selected h1 h2
  rw [hleft, hright]
  refine ⟨(h.active_iff h2).2 hsel.first, (h.active_iff h2).2 hsel.second,
    (h.before_iff (hl.trans h2) (hr.trans h2)).2 hsel.order, fun i hi hil hir => ?_⟩
  exact (h.before_iff (hr.trans h2) (hi.1.trans h2)).2 (hsel.least i ((h.active_iff h2).1 hi) hil hir)

end inner

/-- The tree BUILD_TREE gives is the one R116 to R122 describe. -/
theorem Block.HoldsTree.isHuffmanTree : b.IsHuffmanTree where
  root := by rw [← h.nodeCount_add_one, ← h.root_add_one]
  nodeCount := h.nodeCount_add_one
  total := h.total_eq_root_weight
  leaves _ _ hs := h.leaf_of_symbol hs
  inner j h1 h2 := h.inner_record (by rwa [presentSymbols_length] at h1) h2
  selected j h1 h2 := by
    rw [presentSymbols_length] at h1 ⊢
    exact h.inner_selects_least_two h1 h2

end store

/-- "Entries of NODE at NODE_COUNT and above are not written" (R122). -/
theorem Block.nodeAt_putTree_above (b : Block) (hp : presentEntries b.freq ≠ []) {i : NodeIdx}
    (hi : b.putTree.nodeCount ≤ i) : nodeAt b.putTree.node i = nodeAt b.node i := by
  rw [BitVec.le_def, (b.holdsTree_putTree hp).nodeCount_toNat, Block.putTree_freq] at hi
  rw [nodeAt, nodeAt, Block.putTree_node, writeNodesFrom_above _ _ hi]

theorem exec_buildTree_of_present (s : State) (hp : presentEntries s.blk.freq ≠ []) :
    exec .buildTree s = .next (s.withBlk (s.blk.putTree.finish .ok)) := by
  have hrun : runOf .buildTree s.blk = .ok s.blk.putTree := if_neg hp
  rw [exec_eq, hrun]; rfl

/-- Settles O23: the invariant of the merge rounds (`Forest.Good`), which gives `Block.HoldsTree`, read on the store that
the completion leaves. -/
theorem buildTreeMeetsItsRules : Obligations.BuildTreeMeetsItsRules := by
  intro s sym hsym
  have hp : presentEntries s.blk.freq ≠ [] := presentEntries_ne_nil hsym
  refine ⟨_, exec_buildTree_of_present s hp, ?_, ?_, rfl⟩
  · exact ((s.blk.holdsTree_putTree hp).finish .ok).isHuffmanTree
  · exact fun i hi => s.blk.nodeAt_putTree_above hp hi

/-- Settles O46: the sums are exact because every active collection weighs what the frequencies weigh, below 2^40. -/
theorem weightsAreConserved : Obligations.WeightsAreConserved := by
  intro b hinv hvalid
  have htree := hinv.holdsTree hvalid
  refine ⟨fun j h1 h2 => ?_, htree.total_toNat, htree.total_eq_root_weight⟩
  rw [presentSymbols_length] at h1
  exact htree.inner_weight_toNat h1 h2

end Sys2Proof.Machine
end

section
/-! One step, seen from outside and by what it makes of the block (40_command_interface.md R81 to R85, R91). -/

namespace Sys2Proof.Machine

/-- A register's offset is the only one that names it (R16). -/
theorem regOffset_of_regAt {off : Nat} {r : Reg} (h : regAt off = some r) : regOffset r = off := by
  have hle : off ≤ 0x7C := by
    have hdefined : (off % 4 == 0 && decide (off ≤ 0x7C)) = true := by rw [← regAt_isSome, h]; rfl
    simp only [Bool.and_eq_true, decide_eq_true_eq] at hdefined
    exact hdefined.2
  have hall : ∀ n, n ≤ 0x7C → (regAt n).all (fun r => regOffset r == n) = true := by decide
  simpa [h] using hall off hle

theorem step_of_command {s : State} {i : Instr} (turn : engineTurn s = true) (cmd : decode s.blk.curCmd = .command i) :
    step s = .next (s.complete (runOf i s.blk)) := by
  simp only [step, turn, engineStep, cmd, exec_eq, if_true]

theorem step_of_illegal {s : State} {why : Illegal} (turn : engineTurn s = true)
    (cmd : decode s.blk.curCmd = .illegal why) : step s = .next (s.complete (.fail .illegalCmd)) := by
  simp only [step, turn, engineStep, cmd, execIllegal, runIllegal, if_true]

/-- At the host's turn the step is the host's next operation (R91). -/
theorem step_of_hostTurn {s : State} {op : HostOp} {rest : List Input} (h : hostTurn s op rest) :
    step s = hostStep op rest s := by
  obtain ⟨hturn, -, hinputs⟩ := h
  simp only [step, hturn, hinputs, inputStep, Bool.false_eq_true, if_false]

theorem step_of_read {s : State} {off : Nat} {rest : List Input} {r : Reg} (h : hostTurn s (.rd off 4) rest)
    (hr : regAt off = some r) : step s = .next ((hostRead r s).withInputs rest) := by
  have ⟨_, held, _⟩ := h
  simp only [step_of_hostTurn h, hostStep, held, accessReg, hr, Bool.false_eq_true, if_false, if_true]

theorem step_of_write {s : State} {off : Nat} {v : Word} {rest : List Input} {r : Reg}
    (h : hostTurn s (.wr off 4 v) rest) (hr : regAt off = some r) :
    step s = .next ((hostWrite r v s).withInputs rest) := by
  have ⟨_, held, _⟩ := h
  simp only [step_of_hostTurn h, hostStep, held, accessReg, hr, Bool.false_eq_true, if_false, if_true]

/-- What a step can make of the block: a completion, a reset, or one of the four effects of an outside step. -/
inductive BlockStep (s : State) (c : Block) : Prop where
  | completes (i : Instr) (turn : engineTurn s = true) (cmd : decode s.blk.curCmd = .command i)
      (eq : c = s.blk.complete (runOf i s.blk))
  | illegal (why : Illegal) (turn : engineTurn s = true) (cmd : decode s.blk.curCmd = .illegal why)
      (eq : c = s.blk.finish .illegalCmd)
  | reset (rest : List Input) (turn : engineTurn s = false) (next : s.env.inputs = .resetOn :: rest)
      (eq : c = Block.reset)
  | accepts (v : Word) (rest : List Input) (turn : hostTurn s (.wr 0x00 4 v) rest) (idle : s.blk.phase = .idle)
      (eq : c = s.blk.accept v)
  | rejects (v : Word) (rest : List Input) (turn : hostTurn s (.wr 0x00 4 v) rest) (busy : s.blk.phase = .busy)
      (eq : c = s.blk.reject)
  | writesArg (v : Word) (turn : engineTurn s = false) (eq : c = s.blk.writeArg v)
  | keeps (turn : engineTurn s = false) (eq : c = s.blk)

/-- What a host write makes of the block, as a step (R82). -/
theorem blockStep_of_write {s : State} {off : Nat} {v : Word} {r : Reg} {rest : List Input}
    (hturn : hostTurn s (.wr off 4 v) rest) (hr : regAt off = some r) : BlockStep s (busWrite s.blk r v) := by
  have hoff := regOffset_of_regAt hr
  rcases busWrite_cases s.blk r v with ⟨rfl, hp, e⟩ | ⟨rfl, hp, e⟩ | ⟨-, e⟩ | ⟨-, -, e⟩
  · subst hoff; exact .accepts v rest hturn hp e
  · subst hoff; exact .rejects v rest hturn hp e
  · exact .writesArg v hturn.1 e
  · exact .keeps hturn.1 e

/-- The inversion of the step, for the block alone. -/
theorem step_blk {s t : State} (h : step s = .next t) : BlockStep s t.blk := by
  rcases step_cases h with ⟨turn, i, cmd, rfl⟩ | ⟨turn, why, cmd, rfl⟩ | ⟨turn, -, rfl⟩ |
    ⟨turn, -, off, r, rest, -, -, rfl⟩ | ⟨turn, held, off, v, r, rest, next, hr, rfl⟩ | ⟨turn, -, rest, -, rfl⟩ |
    ⟨turn, rest, next, rfl⟩ | ⟨turn, rest, -, rfl⟩
  · exact .completes i turn cmd rfl
  · exact .illegal why turn cmd rfl
  · exact .keeps turn rfl
  · exact .keeps turn rfl
  · exact blockStep_of_write ⟨turn, held, next⟩ hr
  · exact .keeps turn (hostPoll_blk rest s)
  · exact .reset rest turn next rfl
  · exact .keeps turn rfl

/-- The commands that write FREQ when they succeed (R30). -/
def isTableCommand (i : Instr) : Prop := i = .clear ∨ ∃ s, i = .countByte s ∨ i = .setFreq s

/-- The commands that write the result registers when they succeed (R29). -/
def isReadCommand (i : Instr) : Prop := i = .readNode ∨ ∃ s, i = .readFreq s ∨ i = .readCode s

/-- What a completion can make of the block: it only reports a code, or it reports OK after the one kind of effect its
command has. -/
inductive CompletionOf (i : Instr) (b c : Block) : Prop where
  | reports (code : ErrCode) (h3 : code ≠ .alphabetOverflow) (h5 : code ≠ .busyReject) (eq : c = b.finish code)
  | freq (cmd : isTableCommand i) (freq : Vector Word 256) (eq : c = { b with freq := freq }.invalidate.finish .ok)
  | tree (cmd : i = .buildTree) (present : presentEntries b.freq ≠ []) (eq : c = b.putTree.finish .ok)
  | codes (cmd : i = .genCodes) (valid : b.treeValid = true) (eq : c = b.putCodes.finish .ok)
  | results (cmd : isReadCommand i) (r0 r1 info : Word) (bits : Vector Word 8)
      (eq : c = (b.setResults r0 r1 info bits).finish .ok)

theorem completionOf_runOf (i : Instr) (b : Block) : CompletionOf i b (b.complete (runOf i b)) := by
  rcases runOf_cases i b with ⟨-, e⟩ | ⟨cmd, e⟩ | ⟨s, -, -, e⟩ | ⟨s, cmd, -, e⟩ | ⟨s, cmd, e⟩ | ⟨s, cmd, e⟩ |
    ⟨-, -, e⟩ | ⟨cmd, present, e⟩ | ⟨-, -, e⟩ | ⟨cmd, -, -, r0, r1, info, bits, e, -⟩ | ⟨-, -, e⟩ | ⟨cmd, valid, e⟩ |
    ⟨s, -, -, e⟩ | ⟨s, cmd, -, e⟩ <;> rw [e]
  · exact .reports .ok (by decide) (by decide) rfl
  · exact .freq (.inl cmd) _ rfl
  · exact .reports .countOverflow (by decide) (by decide) rfl
  · exact .freq (.inr ⟨s, .inl cmd⟩) _ rfl
  · exact .freq (.inr ⟨s, .inr cmd⟩) _ rfl
  · exact .results (.inr ⟨s, .inl cmd⟩) _ _ _ _ rfl
  · exact .reports .emptyInput (by decide) (by decide) rfl
  · exact .tree cmd present rfl
  · exact .reports .invalidInput (by decide) (by decide) rfl
  · exact .results (.inl cmd) r0 r1 info bits rfl
  · exact .reports .invalidInput (by decide) (by decide) rfl
  · exact .codes cmd valid rfl
  · exact .reports .invalidInput (by decide) (by decide) rfl
  · exact .results (.inr ⟨s, .inr cmd⟩) _ _ _ _ rfl

end Sys2Proof.Machine
end

section
/-! The invariant at reset and across a step (10_state.md R36). -/

namespace Sys2Proof.Machine

theorem Block.Inv.reset : Block.reset.Inv where
  codesTree h := nomatch h
  noTree _ := ⟨rfl, rfl, rfl⟩
  noCodes _ := ⟨rfl, rfl⟩
  holdsTree h := nomatch h
  holdsCodes h := nomatch h
  errCode := .inl rfl
  accBits := ⟨rfl, rfl⟩

/-- A completion keeps the invariant: each of its effects does, and so does its report. -/
theorem Block.Inv.complete {b : Block} (h : b.Inv) (i : Instr) : (b.complete (runOf i b)).Inv := by
  have hok {c : Block} (hc : c.Inv) : (c.finish .ok).Inv := hc.finish (by decide) (by decide)
  cases completionOf_runOf i b with
  | reports code h3 h5 e => rw [e]; exact h.finish h3 h5
  | freq _ freq e => rw [e]; exact hok (h.invalidate freq)
  | tree _ present e => rw [e]; exact hok (h.putTree present)
  | codes _ valid e => rw [e]; exact hok (h.putCodes valid)
  | results _ r0 r1 info bits e => rw [e]; exact hok (h.setResults r0 r1 info bits)

/-- Settles O42: with both flags 0 there is nothing to hold but the zeros. -/
theorem invHoldsAtReset : Obligations.InvHoldsAtReset := Block.Inv.reset

/-- Settles O43: by the effects a step can have on the block, each of which keeps the invariant. -/
theorem stepKeepsInv : Obligations.StepKeepsInv := by
  intro s t h hstep
  cases step_blk hstep with
  | completes i _ _ e => rw [e]; exact h.complete i
  | illegal _ _ _ e => rw [e]; exact h.finish (by decide) (by decide)
  | reset _ _ _ e => rw [e]; exact .reset
  | accepts v _ _ _ e => rw [e]; exact h.accept v
  | rejects _ _ _ _ e => rw [e]; exact h.reject
  | writesArg v _ e => rw [e]; exact h.writeArg v
  | keeps _ e => rw [e]; exact h

end Sys2Proof.Machine
end

section
/-! What a step changes and what it leaves (10_state.md R17, R24, R25, R29 to R32, R38). -/

namespace Sys2Proof.Machine

section completion

variable {i : Instr} {b c : Block} (h : CompletionOf i b c)

include h

/-- No completion clears a bit of ERR_ACC (R167). -/
theorem CompletionOf.errAcc_sticky {k : Nat} (hk : b.errAcc.getLsbD k = true) : c.errAcc.getLsbD k = true := by
  cases h with
  | reports code _ _ e => simp [e, raiseAcc_getLsbD, hk]
  | freq _ _ e | tree _ _ e | codes _ _ e | results _ _ _ _ _ e => simp [e, hk]

/-- A completion that writes FREQ ends with `invalidate()` (R30, R100). -/
theorem CompletionOf.freq_eq_or :
    c.freq = b.freq ∨ (isTableCommand i ∧ c.treeValid = false ∧ c.codesValid = false) := by
  cases h with
  | freq cmd _ e => exact .inr ⟨cmd, by simp [e]⟩
  | reports _ _ _ e | tree _ _ e | codes _ _ e | results _ _ _ _ _ e => exact .inl (by simp [e])

theorem CompletionOf.node_eq_or : c.node = b.node ∨ i = .buildTree := by
  cases h with
  | tree cmd _ _ => exact .inr cmd
  | reports _ _ _ e | freq _ _ e | codes _ _ e | results _ _ _ _ _ e => exact .inl (by simp [e])

theorem CompletionOf.codeTable_eq_or : (c.codeLen = b.codeLen ∧ c.codeVal = b.codeVal) ∨ i = .genCodes := by
  cases h with
  | codes cmd _ _ => exact .inr cmd
  | reports _ _ _ e | freq _ _ e | tree _ _ e | results _ _ _ _ _ e => exact .inl (by simp [e])

theorem CompletionOf.results_eq_or :
    (c.result0, c.result1, c.nodeInfo, c.codeBits) = (b.result0, b.result1, b.nodeInfo, b.codeBits) ∨
      (isReadCommand i ∧ c.err = 0#4) := by
  cases h with
  | results cmd _ _ _ _ e => exact .inr ⟨cmd, by simp [e, ErrCode.code]⟩
  | reports _ _ _ e | freq _ _ e | tree _ _ e | codes _ _ e => exact .inl (by simp [e])

end completion

/-- A step is a reset, a command's completion, or changes only the command state and the error registers. -/
theorem step_reset_or_completion_or_frame {s t : State} (h : step s = .next t) :
    ((engineTurn s = false ∧ ∃ rest, s.env.inputs = .resetOn :: rest) ∧ t.blk = Block.reset) ∨
    (engineTurn s = true ∧ ∃ i, decode s.blk.curCmd = .command i ∧ CompletionOf i s.blk t.blk) ∨
    t.blk = { s.blk with
      phase := t.blk.phase, curCmd := t.blk.curCmd, curArg := t.blk.curArg, arg := t.blk.arg, err := t.blk.err,
      errAcc := t.blk.errAcc } := by
  cases step_blk h with
  | completes i turn cmd e => exact .inr (.inl ⟨turn, i, cmd, e ▸ completionOf_runOf i s.blk⟩)
  | reset rest turn next e => exact .inl ⟨⟨turn, rest, next⟩, e⟩
  | illegal _ _ _ e | accepts _ _ _ _ e | rejects _ _ _ _ e | writesArg _ _ e =>
    exact .inr (.inr (by rw [e]; rfl))
  | keeps _ e => exact .inr (.inr (by rw [e]))

/-- Settles O34: of the effects a step can have, only a reset and an accepted CLEAR can lower a bit of ERR_ACC. -/
theorem errAccIsSticky : Obligations.ErrAccIsSticky := by
  intro s t k hstep hk
  cases step_blk hstep with
  | completes i _ _ e => exact .inl ((e ▸ completionOf_runOf i s.blk).errAcc_sticky hk)
  | reset rest turn next _ => exact .inr (.inl ⟨turn, rest, next⟩)
  | accepts v rest turn idle e =>
    by_cases hclear : decode v = .command .clear
    · exact .inr (.inr ⟨idle, v, rest, turn, hclear⟩)
    · exact .inl (by simp [e, hclear, hk])
  | illegal _ _ _ e | rejects _ _ _ _ e => exact .inl (by simp [e, raiseAcc_getLsbD, hk])
  | writesArg _ _ e | keeps _ e => exact .inl (by simp [e, hk])

/-- Settles O35: a completion that changes FREQ has invalidated, and no step but a completion or a reset changes it. -/
theorem onlyTableCommandsWriteFreq : Obligations.OnlyTableCommandsWriteFreq := by
  intro s t hstep hne
  rcases step_reset_or_completion_or_frame hstep with ⟨hreset, e⟩ | ⟨turn, i, cmd, hc⟩ | hframe
  · exact ⟨by rw [e]; exact ⟨rfl, rfl⟩, .inl hreset⟩
  · obtain ⟨htable, hvalid⟩ := hc.freq_eq_or.resolve_left hne
    refine ⟨hvalid, .inr ⟨turn, ?_⟩⟩
    simpa [cmd, isTableCommand] using htable
  · exact absurd (by rw [hframe]) hne

/-- Settles O36: each store has one command whose completion can change it. -/
theorem onlyBuildersWriteTreeAndCodes : Obligations.OnlyBuildersWriteTreeAndCodes := by
  intro s t hstep
  rcases step_reset_or_completion_or_frame hstep with ⟨hreset, -⟩ | ⟨turn, i, cmd, hc⟩ | hframe
  · exact ⟨fun _ => .inl hreset, fun _ => .inl hreset⟩
  · refine ⟨fun hne => .inr ⟨turn, ?_⟩, fun hne => .inr ⟨turn, ?_⟩⟩
    · rw [cmd, hc.node_eq_or.resolve_left hne]
    · rw [cmd, hc.codeTable_eq_or.resolve_left (by tauto)]
  · rw [hframe]
    exact ⟨fun hne => absurd rfl hne, fun hne => absurd ⟨rfl, rfl⟩ (not_and_or.2 hne)⟩

/-- Settles O37: a failing completion only reports, so one that changes a result word has code OK. -/
theorem onlyReadsWriteResults : Obligations.OnlyReadsWriteResults := by
  intro s t hstep hne
  rcases step_reset_or_completion_or_frame hstep with ⟨hreset, -⟩ | ⟨turn, i, cmd, hc⟩ | hframe
  · exact .inl hreset
  · obtain ⟨hread, herr⟩ := hc.results_eq_or.resolve_left hne
    refine .inr ⟨turn, herr, ?_⟩
    simpa [cmd, isReadCommand] using hread
  · exact absurd (by rw [hframe]) hne

/-- Settles O38: the effects of an outside step that is no reset are acceptance, rejection, a write to ARG and none. -/
theorem hostChangesOnlyCommandState : Obligations.HostChangesOnlyCommandState := by
  intro s t hstep hturn hreset
  cases step_blk hstep with
  | completes _ turn _ _ | illegal _ turn _ _ => exact absurd turn (by simp [hturn])
  | reset rest _ next _ => exact absurd next (hreset rest)
  | accepts _ _ _ _ e | rejects _ _ _ _ e | writesArg _ _ e => rw [e]; rfl
  | keeps _ e => rw [e]

/-- NSYM is 0 exactly on an empty table (R24, R108). -/
theorem nsym_eq_zero_iff (freq : Vector Word 256) : nsym freq = 0#9 ↔ presentEntries freq = [] := by
  rw [← BitVec.toNat_inj, nsym_toNat, BitVec.toNat_zero, List.length_eq_zero_iff]

/-- Settles O33: an illegal word only reports, a rejection only sets ERR_ACC, and a command's row is the branch its run
takes. -/
theorem flagsSummary : Obligations.FlagsSummary := by
  refine ⟨fun s t why turn cmd hstep => ?_, fun s t v rest turn busy hstep => ?_, fun i s t hexec => ?_⟩
  · rw [step_of_illegal turn cmd] at hstep
    injection hstep with e
    rw [← e]; rfl
  · rw [step_of_write (r := .cmd) turn rfl] at hstep
    injection hstep with e
    simp [← e, hostWrite, busWrite, busy]
  · rw [exec_eq] at hexec
    injection hexec with e
    rw [← e]
    rcases runOf_cases i s.blk with ⟨rfl, hrun⟩ | ⟨rfl, hrun⟩ | ⟨_, rfl, hmax, hrun⟩ | ⟨_, rfl, hmax, hrun⟩ |
      ⟨_, rfl, hrun⟩ | ⟨_, rfl, hrun⟩ | ⟨rfl, hempty, hrun⟩ | ⟨rfl, hpresent, hrun⟩ | ⟨rfl, hfail, hrun⟩ |
      ⟨rfl, htree, hlt, _, _, _, _, hrun, -⟩ | ⟨rfl, htree, hrun⟩ | ⟨rfl, htree, hrun⟩ | ⟨_, rfl, hcodes, hrun⟩ |
      ⟨_, rfl, hcodes, hrun⟩ <;> rw [State.complete_blk, hrun]
    · rfl
    · rfl
    · exact (if_pos hmax).symm
    · exact (if_neg hmax).symm
    · rfl
    · rfl
    · exact (if_pos ((nsym_eq_zero_iff _).2 hempty)).symm
    · exact (if_neg (mt (nsym_eq_zero_iff _).1 hpresent)).symm
    · exact (if_pos hfail).symm
    · exact (if_neg (not_or.2 ⟨by simp [htree], BitVec.not_le.2 hlt⟩)).symm
    · exact (if_pos htree).symm
    · simp [htree, ErrCode.code]
    · exact (if_pos hcodes).symm
    · exact (if_neg (by simp [hcodes])).symm

/-- Settles O31: each present symbol is the index of one nonzero entry. -/
theorem nsymCountsNonzeroEntries : Obligations.NsymCountsNonzeroEntries := by
  intro freq
  have halphabet : alphabet = (List.finRange 256).map BitVec.ofFin := by
    rw [alphabet, ← List.map_coe_finRange_eq_range, List.map_map]
    exact List.map_congr_left fun k _ => by simp
  have hentry : ∀ k : Fin 256, freqAt freq (BitVec.ofFin k) = freq[k] := fun _ => rfl
  rw [nsym_toNat, presentEntries_eq, halphabet, List.filter_map, List.length_map, List.length_map]
  exact congrArg List.length (List.filter_congr fun k _ => Bool.eq_iff_iff.2 (by simp [hentry]))

end Sys2Proof.Machine
end

section
/-! What the host cannot tell apart (10_state.md R31, R32, R37). -/

namespace Sys2Proof.Machine

/-! ### The code table of equal trees -/

/-- The code table is a function of the tree that the store holds. -/
theorem codeTableOf_congr {n n' : Vector NodeRec 511} {N : Nat} {root : NodeIdx} {T : HTree}
    (h : Rep (fun k => nodeAt n (BitVec.ofNat 9 k)) N root.toNat T)
    (h' : Rep (fun k => nodeAt n' (BitVec.ofNat 9 k)) N root.toNat T) (hroot : nodeAt n root = nodeAt n' root)
    (hle : T.leaves.length ≤ 256) : codeTableOf n root = codeTableOf n' root := by
  have hwalk := (walk_rep h 256 [] CodeTable.empty hle).trans (walk_rep h' 256 [] CodeTable.empty hle).symm
  simp only [BitVec.ofNat_toNat, BitVec.setWidth_eq] at hwalk
  rw [codeTableOf, codeTableOf, hroot, hwalk]

section tree

variable {a b : Block} (ha : a.HoldsTree) (hb : b.HoldsTree) (hf : a.freq = b.freq)

include ha hb hf

/-- Two stores that hold the tree of one frequency table agree below NODE_COUNT (R132). -/
theorem Block.HoldsTree.nodeN_congr {k : Nat} (hk : k < a.nodeCount.toNat) : a.nodeN k = b.nodeN k := by
  have hk' : k < b.nodeCount.toNat := by rwa [hb.nodeCount_toNat, ← hf, ← ha.nodeCount_toNat]
  rw [ha.nodeN_eq hk, hb.nodeN_eq hk', hf]

theorem Block.HoldsTree.root_congr : a.root = b.root := by rw [ha.root, hb.root, hf]

/-- Their code tables are the same (R153). -/
theorem Block.HoldsTree.codeTableOf_congr : codeTableOf a.node a.root = codeTableOf b.node b.root := by
  obtain ⟨T, hT, hleaves, -⟩ := ha.tree
  have hle : T.leaves.length ≤ 256 := by
    have hlen : T.leaves.length = (presentEntries a.freq).length := by simpa using hleaves.length_eq
    exact hlen ▸ presentEntries_length_le a.freq
  have hroot : a.root.toNat < a.nodeCount.toNat := hT.lt
  have hT' : Rep b.nodeN a.nodeCount.toNat a.root.toNat T :=
    hT.congr (Nat.le_refl _) fun k hk => (ha.nodeN_congr hb hf hk).symm
  have hat : nodeAt a.node a.root = nodeAt b.node a.root := by
    simpa [Block.nodeN] using ha.nodeN_congr hb hf hroot
  rw [← ha.root_congr hb hf]
  exact Machine.codeTableOf_congr hT hT' hat hle

theorem Block.HoldsTree.leavesOf_congr :
    leavesOf a.node (leafCount a.nodeCount) = leavesOf b.node (leafCount b.nodeCount) := by
  rw [ha.leavesOf_eq, hb.leavesOf_eq, hf]

end tree

/-! ### The effects, on two blocks a host cannot tell apart -/

theorem Block.SameToHost.refl (a : Block) : a.SameToHost a := by
  constructor <;> simp

section effects

variable {a b : Block} (h : a.SameToHost b)

include h

theorem Block.SameToHost.finish (c : ErrCode) : (a.finish c).SameToHost (b.finish c) := by
  obtain ⟨-, -, harg, hvalid, ⟨-, hacc⟩, htree, hlen, hres, hfreq, hnodes, hcodes⟩ := h
  exact ⟨rfl, nofun, harg, hvalid, ⟨rfl, by simp [hacc]⟩, htree, hlen, hres, hfreq, hnodes, hcodes⟩

theorem Block.SameToHost.setFreqTable (freq : Vector Word 256) :
    { a with freq := freq }.invalidate.SameToHost { b with freq := freq }.invalidate := by
  obtain ⟨hphase, hcmd, harg, -, herr, -, -, hres, -, -, -⟩ := h
  exact ⟨hphase, hcmd, harg, ⟨rfl, rfl⟩, herr, ⟨rfl, rfl, rfl⟩, ⟨rfl, rfl⟩, hres, rfl,
    fun i hi => absurd hi BitVec.not_lt_zero, nofun⟩

theorem Block.SameToHost.setFreq (s : Symbol) (v : Word) : (a.setFreq s v).SameToHost (b.setFreq s v) := by
  have := h.setFreqTable (writeFreq a.freq s v)
  rwa [Block.setFreq, Block.setFreq, ← h.freq]

theorem Block.SameToHost.setResults (r0 r1 info : Word) (bits : Vector Word 8) :
    (a.setResults r0 r1 info bits).SameToHost (b.setResults r0 r1 info bits) := by
  obtain ⟨hphase, hcmd, harg, hvalid, herr, htree, hlen, -, hfreq, hnodes, hcodes⟩ := h
  exact ⟨hphase, hcmd, harg, hvalid, herr, htree, hlen, ⟨rfl, rfl, rfl, rfl⟩, hfreq, hnodes, hcodes⟩

theorem Block.SameToHost.putTree (hp : presentEntries a.freq ≠ []) : a.putTree.SameToHost b.putTree := by
  obtain ⟨hphase, hcmd, harg, -, herr, -, -, hres, hfreq, -, -⟩ := h
  have htree := a.holdsTree_putTree hp
  have htree' := b.holdsTree_putTree (hfreq ▸ hp)
  refine ⟨hphase, hcmd, harg, ⟨rfl, rfl⟩, herr, by simp [hfreq], ⟨rfl, rfl⟩, hres, hfreq, fun i hi => ?_, nofun⟩
  simpa [Block.nodeN] using htree.nodeN_congr htree' hfreq (BitVec.lt_def.1 hi)

theorem Block.SameToHost.putCodes (ha : a.HoldsTree) (hb : b.HoldsTree) : a.putCodes.SameToHost b.putCodes := by
  obtain ⟨hphase, hcmd, harg, ⟨hvalid, -⟩, herr, htree, -, hres, hfreq, hnodes, -⟩ := h
  have hcodes := ha.codeTableOf_congr hb hfreq
  have hleaves := ha.leavesOf_congr hb hfreq
  exact ⟨hphase, hcmd, harg, ⟨hvalid, rfl⟩, herr, htree, by simp [hcodes, hleaves], hres, hfreq, hnodes,
    fun _ => by simp [hcodes]⟩

theorem Block.SameToHost.accept (v : Word) : (a.accept v).SameToHost (b.accept v) := by
  obtain ⟨-, -, harg, hvalid, ⟨herr, hacc⟩, htree, hlen, hres, hfreq, hnodes, hcodes⟩ := h
  exact ⟨rfl, fun _ => ⟨rfl, harg⟩, harg, hvalid, ⟨herr, by simp [hacc]⟩, htree, hlen, hres, hfreq, hnodes, hcodes⟩

theorem Block.SameToHost.reject : a.reject.SameToHost b.reject := by
  obtain ⟨hphase, hcmd, harg, hvalid, ⟨herr, hacc⟩, htree, hlen, hres, hfreq, hnodes, hcodes⟩ := h
  exact ⟨hphase, hcmd, harg, hvalid, ⟨herr, by simp [hacc]⟩, htree, hlen, hres, hfreq, hnodes, hcodes⟩

theorem Block.SameToHost.writeArg (v : Word) : (a.writeArg v).SameToHost (b.writeArg v) := by
  obtain ⟨hphase, hcmd, -, hvalid, herr, htree, hlen, hres, hfreq, hnodes, hcodes⟩ := h
  exact ⟨hphase, hcmd, rfl, hvalid, herr, htree, hlen, hres, hfreq, hnodes, hcodes⟩

/-- A host write has the same effect on both (R82). -/
theorem Block.SameToHost.busWrite (r : Reg) (v : Word) : (busWrite a r v).SameToHost (busWrite b r v) := by
  cases r with
  | cmd =>
    simp only [Machine.busWrite, ← h.phase]
    split
    · exact h.accept v
    · exact h.reject
  | arg => exact h.writeArg v
  | _ => exact h

/-- A host read gives the same word from both (R81). -/
theorem Block.SameToHost.busRead (draw : Word) (r : Reg) : busRead a draw r = busRead b draw r := by
  obtain ⟨hphase, -, harg, ⟨htv, hcv⟩, ⟨herr, hacc⟩, ⟨hroot, hcount, htotal⟩, ⟨hwlen, hmax⟩,
    ⟨hr0, hr1, hinfo, hbits⟩, hfreq, -, -⟩ := h
  unfold Machine.busRead
  rw [← hphase]
  cases a.phase with
  | idle =>
    cases r <;> simp [idleWord, statusWord, errAccWord, treeInfoWord, totalLoWord, totalHiWord, wlenLoWord, wlenHiWord,
      maxLenWord, *]
  | busy => cases r <;> simp [busyWord, harg]

/-- The completion of a command reads nothing that reset leaves unspecified (R31, R32, R37). -/
theorem Block.SameToHost.complete (ha : a.Inv) (hb : b.Inv) (hbusy : a.phase = .busy) (i : Instr) :
    (a.complete (runOf i a)).SameToHost (b.complete (runOf i b)) := by
  obtain ⟨-, hcurArg⟩ := h.command hbusy
  obtain ⟨htv, hcv⟩ := h.valid
  obtain ⟨-, hcount, -⟩ := h.tree
  cases i with
  | nop => exact h.finish .ok
  | clear => exact (h.setFreqTable _).finish .ok
  | countByte s =>
    simp only [runOf, runCountByte, ← h.freq]
    split
    · exact h.finish .countOverflow
    · exact (h.setFreq s _).finish .ok
  | setFreq s =>
    simp only [runOf, runSetFreq, ← hcurArg]
    exact (h.setFreq s _).finish .ok
  | readFreq s =>
    simp only [runOf, runReadFreq, ← h.freq]
    exact (h.setResults _ _ _ _).finish .ok
  | buildTree =>
    simp only [runOf, runBuildTree, ← h.freq]
    split
    · exact h.finish .emptyInput
    · next hp => exact (h.putTree hp).finish .ok
  | readNode =>
    simp only [runOf, runReadNode, ← htv, ← hcount, ← hcurArg]
    split
    · exact h.finish .invalidInput
    · split
      · exact h.finish .invalidInput
      · next hlt =>
        rw [← h.nodes _ (BitVec.not_le.1 hlt)]
        exact (h.setResults _ _ _ _).finish .ok
  | genCodes =>
    simp only [runOf, runGenCodes, ← htv]
    split
    · exact h.finish .invalidInput
    · next hv =>
      rw [Bool.not_eq_false] at hv
      exact (h.putCodes (ha.holdsTree hv) (hb.holdsTree (htv ▸ hv))).finish .ok
  | readCode s =>
    simp only [runOf, runReadCode, ← hcv]
    split
    · exact h.finish .invalidInput
    · next hv =>
      rw [Bool.not_eq_false] at hv
      obtain ⟨hlen, hval⟩ := h.codes hv
      rw [← hlen, ← hval]
      exact (h.setResults _ _ _ _).finish .ok

end effects

/-! ### The step -/

/-- Two answers of a step that a host cannot tell apart: the same refusal, or next states whose blocks it cannot tell
apart, with the same outside world and so the same reads. -/
def SameAnswer (x y : Host.Outcome State Fault Refusal) : Prop :=
  (∃ s t, x = .next s ∧ y = .next t ∧ s.blk.SameToHost t.blk ∧ s.env = t.env) ∨ ∃ r, x = .refused r ∧ y = .refused r

theorem SameAnswer.next {s t : State} (hblk : s.blk.SameToHost t.blk) (henv : s.env = t.env) :
    SameAnswer (.next s) (.next t) :=
  .inl ⟨s, t, rfl, rfl, hblk, henv⟩

section step

variable {s t : State} (hblk : s.blk.SameToHost t.blk) (henv : s.env = t.env)

include hblk henv

theorem sameAnswer_hostRead (r : Reg) (rest : List Input) :
    SameAnswer (.next ((hostRead r s).withInputs rest)) (.next ((hostRead r t).withInputs rest)) := by
  refine .next hblk ?_
  simp only [hostRead, State.withInputs, State.withEnv_env, ← henv, hblk.busRead, hblk.phase]

theorem sameAnswer_hostWrite (r : Reg) (v : Word) (rest : List Input) :
    SameAnswer (.next ((hostWrite r v s).withInputs rest)) (.next ((hostWrite r v t).withInputs rest)) := by
  refine .next (hblk.busWrite r v) ?_
  simp only [hostWrite, State.withInputs, ← henv, hblk.phase]

theorem sameAnswer_hostPoll (rest : List Input) : SameAnswer (.next (hostPoll rest s)) (.next (hostPoll rest t)) := by
  refine .next (by simpa using hblk) ?_
  simp only [hostPoll, status_bit0, hostRead, hblk.busRead, hblk.phase, ← henv]
  split <;> rfl

theorem sameAnswer_hostStep (op : HostOp) (rest : List Input) : SameAnswer (hostStep op rest s) (hostStep op rest t) := by
  simp only [hostStep, ← henv]
  split
  · exact .inr ⟨_, rfl, rfl⟩
  · cases op with
    | rd off bytes =>
      dsimp only
      cases accessReg off bytes with
      | none => exact .inr ⟨_, rfl, rfl⟩
      | some r => exact sameAnswer_hostRead hblk henv r rest
    | wr off bytes v =>
      dsimp only
      cases accessReg off bytes with
      | none => exact .inr ⟨_, rfl, rfl⟩
      | some r => exact sameAnswer_hostWrite hblk henv r v rest
    | wait => exact sameAnswer_hostPoll hblk henv rest

theorem sameAnswer_inputStep (i : Input) (rest : List Input) :
    SameAnswer (inputStep i rest s) (inputStep i rest t) := by
  cases i with
  | host op => exact sameAnswer_hostStep hblk henv op rest
  | resetOn => exact .next (.refl Block.reset) (by simp [applyReset, State.withInputs, henv])
  | resetOff => exact .next hblk (by simp [releaseReset, State.withInputs, henv])

theorem engineTurn_congr : engineTurn s = engineTurn t := by simp only [engineTurn, hblk.phase, henv]

theorem sameAnswer_engineStep (hs : s.blk.Inv) (ht : t.blk.Inv) (hbusy : s.blk.phase = .busy) :
    SameAnswer (engineStep s) (engineStep t) := by
  obtain ⟨hcmd, -⟩ := hblk.command hbusy
  simp only [engineStep, ← hcmd]
  cases decode s.blk.curCmd with
  | command i =>
    simp only [exec_eq]
    exact .next (hblk.complete hs ht hbusy i) henv
  | illegal why => exact .next (hblk.finish .illegalCmd) henv

end step

/-- Settles O44: the same side moves in both states, and each move reads only what they agree on. -/
theorem unspecifiedStateIsUnobservable : Obligations.UnspecifiedStateIsUnobservable := by
  intro s t hs ht hblk henv
  show SameAnswer (step s) (step t)
  simp only [step, ← engineTurn_congr hblk henv, ← henv]
  split
  · next turn =>
    have hbusy : s.blk.phase = .busy := by simp_all [engineTurn]
    exact sameAnswer_engineStep hblk henv hs ht hbusy
  · cases s.env.inputs with
    | nil => exact .next hblk henv
    | cons i rest => exact sameAnswer_inputStep hblk henv i rest

end Sys2Proof.Machine
end

section
/-! The code table GEN_CODES leaves: each present symbol's code is the path to its leaf (43_code_generator.md R141 to
R146). -/

namespace Sys2Proof.Machine

/-! ### Paths of the tree in the store -/

/-- `Block.leadsToLeaf` from any node: a path of internal nodes to the leaf of s (R141). -/
def Block.leadsFrom (b : Block) (j : NodeIdx) (path : List Bool) (s : Symbol) : Prop :=
  (∀ k, k < path.length → (nodeAt b.node (b.follow j (path.take k))).isLeaf = false) ∧
  (nodeAt b.node (b.follow j path)).isLeaf = true ∧ (nodeAt b.node (b.follow j path)).sym = s

theorem Block.leadsFrom_root {b : Block} {path : List Bool} {s : Symbol} :
    b.leadsFrom b.root path s ↔ b.leadsToLeaf path s := Iff.rfl

theorem Block.leadsFrom_cons {b : Block} {j : NodeIdx} {bit : Bool} {path : List Bool} {s : Symbol}
    (hj : (nodeAt b.node j).isLeaf = false)
    (h : b.leadsFrom (if bit then (nodeAt b.node j).right else (nodeAt b.node j).left) path s) :
    b.leadsFrom j (bit :: path) s := by
  obtain ⟨hinner, hleaf, hsym⟩ := h
  refine ⟨fun k hk => ?_, hleaf, hsym⟩
  cases k with
  | zero => exact hj
  | succ k => exact hinner k (Nat.lt_of_succ_lt_succ hk)

/-- The path to a leaf of the tree at node i leads from there to that leaf. -/
theorem Rep.leadsFrom {b : Block} {N i : Nat} {T : HTree} (h : Rep b.nodeN N i T) {s : Symbol} {p : List Bool}
    (hp : (s, p) ∈ T.paths) : b.leadsFrom (BitVec.ofNat 9 i) p s := by
  induction h generalizing p with
  | leaf hi hl =>
    obtain ⟨rfl, rfl⟩ : s = _ ∧ p = [] := by simpa [HTree.paths] using hp
    exact ⟨nofun, hl, rfl⟩
  | node hi hl _ _ _ ihl ihr =>
    simp only [BitVec.ofNat_toNat, BitVec.setWidth_eq] at ihl ihr
    simp only [HTree.paths, List.mem_append, List.mem_map, Prod.mk.injEq] at hp
    rcases hp with ⟨⟨_, q⟩, hq, rfl, rfl⟩ | ⟨⟨_, q⟩, hq, rfl, rfl⟩
    · exact Block.leadsFrom_cons hl (ihl hq)
    · exact Block.leadsFrom_cons hl (ihr hq)

theorem Rep.leadsToLeaf {b : Block} {N : Nat} {T : HTree} (h : Rep b.nodeN N b.root.toNat T) {s : Symbol}
    {p : List Bool} (hp : (s, p) ∈ T.paths) : b.leadsToLeaf p s := by
  have hfrom := h.leadsFrom hp
  rwa [BitVec.ofNat_toNat, BitVec.setWidth_eq, Block.leadsFrom_root] at hfrom

/-! ### WLEN and MAXLEN -/

/-- The greatest length bounds every leaf's, and is the length of one. -/
theorem longestCode_spec {leaves : List NodeRec} {len : Vector (BitVec 8) 256} (hne : leaves ≠ []) :
    (∀ r ∈ leaves, (codeLenAt len r.sym).toNat ≤ longestCode leaves len) ∧
    ∃ r ∈ leaves, (codeLenAt len r.sym).toNat = longestCode leaves len := by
  have hmax : (0 :: leaves.map fun r => (codeLenAt len r.sym).toNat).max? = some (longestCode leaves len) := rfl
  obtain ⟨hmem, hle⟩ := List.max?_eq_some_iff.1 hmax
  have hbound : ∀ r ∈ leaves, (codeLenAt len r.sym).toNat ≤ longestCode leaves len := fun r hr =>
    hle _ (List.mem_cons_of_mem _ (List.mem_map_of_mem hr))
  refine ⟨hbound, ?_⟩
  rcases List.mem_cons.1 hmem with hzero | hmem
  · obtain ⟨r, hr⟩ := List.exists_mem_of_ne_nil _ hne
    exact ⟨r, hr, by have := hbound r hr; omega⟩
  · exact List.mem_map.1 hmem

@[simp] theorem leafRec_sym (e : Symbol × Word) : (leafRec e).sym = e.1 := rfl

@[simp] theorem leafRec_weight_toNat (e : Symbol × Word) : (leafRec e).weight.toNat = e.2.toNat := by
  have := e.2.isLt
  simp only [leafRec, BitVec.toNat_setWidth]
  omega

/-- `Σ_s FREQ[s] · CODE_LEN[s]` fits in the 48 bits of WLEN (R145). -/
theorem weightedLength_lt {es : List (Symbol × Word)} (hes : es.length ≤ 256) (len : Vector (BitVec 8) 256) :
    weightedLength (es.map leafRec) len < 2 ^ 48 := by
  have hterm : weightedLength (es.map leafRec) len ≤ (es.map fun e => e.2.toNat * 255).sum := by
    rw [weightedLength, List.map_map]
    refine List.sum_le_sum fun e _ => ?_
    simp only [Function.comp, leafRec_weight_toNat]
    exact Nat.mul_le_mul_left _ (Nat.le_of_lt_succ (codeLenAt len _).isLt)
  have hsum := sum_entries_lt es hes
  rw [List.sum_map_mul_right] at hterm
  omega

/-! ### A block whose code table is that of its tree -/

@[simp] theorem Block.codeOf_length (b : Block) (s : Symbol) : (b.codeOf s).length = (codeLenAt b.codeLen s).toNat := by
  simp [Block.codeOf]

section codes

variable {b : Block} (h : b.HoldsTree) (hc : b.HoldsCodes)

include h hc

theorem Block.HoldsTree.codeFacts_of_codes : ∃ T, CodeFacts b T b.codeLen b.codeVal := by
  obtain ⟨T, hT⟩ := h.codeFacts
  rw [← Block.putCodes_codeLen, ← Block.putCodes_codeVal, hc] at hT
  exact ⟨T, hT⟩

/-- A tree of one leaf has the code "0" (R146). -/
theorem Block.HoldsTree.codeOf_single (h1 : (presentEntries b.freq).length = 1) {s : Symbol}
    (hs : s ∈ presentSymbols b.freq) : b.codeOf s = [false] := by
  obtain ⟨T, hT⟩ := h.codeFacts_of_codes hc
  obtain ⟨hlen, hval⟩ := hT.one h1 s hs
  simp [Block.codeOf, hlen, hval]

/-- In a larger tree a present symbol's code is the path to its leaf (R141, R144). -/
theorem Block.HoldsTree.codeOf_leadsToLeaf (h2 : 2 ≤ (presentEntries b.freq).length) {s : Symbol}
    (hs : s ∈ presentSymbols b.freq) : b.leadsToLeaf (b.codeOf s) s := by
  obtain ⟨T, hT⟩ := h.codeFacts_of_codes hc
  obtain ⟨p, hp⟩ : ∃ p, (s, p) ∈ T.paths := by
    rw [← (leaf_symbols hT.leaves).mem_iff, ← T.paths_symbols] at hs
    simpa using hs
  have hshort : p.length < 256 := by
    have hlt := T.path_length_lt _ hp
    have hlen : T.leaves.length = (presentEntries b.freq).length := by simpa using hT.leaves.length_eq
    exact lt_of_lt_of_le hlt (hlen ▸ presentEntries_length_le b.freq)
  obtain ⟨hlen, hval⟩ := hT.many h2 s p hp
  have hcode : b.codeOf s = p := by
    rw [Block.codeOf, hlen, hval]
    exact codeBits_of_path p hshort
  rw [hcode]
  exact hT.rep.leadsToLeaf hp

/-- WLEN is the cost of the code the table holds, with no wrap (R28, R145). -/
theorem Block.HoldsTree.wlen_toNat : b.wlen.toNat = codeCost b.freq b.codeOf := by
  have hwlen : b.wlen = BitVec.ofNat 48 (weightedLength ((presentEntries b.freq).map leafRec) b.codeLen) := by
    have := b.putCodes_wlen
    rwa [h.leavesOf_eq, ← Block.putCodes_codeLen, hc] at this
  rw [hwlen, BitVec.toNat_ofNat, Nat.mod_eq_of_lt (weightedLength_lt (presentEntries_length_le b.freq) b.codeLen),
    weightedLength, presentEntries_eq_map, List.map_map, List.map_map, codeCost]
  congr 1
  exact List.map_congr_left fun s _ => by simp

/-- MAXLEN is the greatest length: it bounds every present symbol's and is the length of one (R28, R145). -/
theorem Block.HoldsTree.maxLen_spec :
    (∀ s ∈ presentSymbols b.freq, (codeLenAt b.codeLen s).toNat ≤ b.maxLen.toNat) ∧
    ∃ s ∈ presentSymbols b.freq, (codeLenAt b.codeLen s).toNat = b.maxLen.toNat := by
  have hmax : b.maxLen = BitVec.ofNat 8 (longestCode ((presentEntries b.freq).map leafRec) b.codeLen) := by
    have := b.putCodes_maxLen
    rwa [h.leavesOf_eq, ← Block.putCodes_codeLen, hc] at this
  obtain ⟨hbound, r, hr, hlongest⟩ := longestCode_spec (len := b.codeLen) (leaves := (presentEntries b.freq).map leafRec)
    (by simpa using h.present)
  have hmaxNat : b.maxLen.toNat = longestCode ((presentEntries b.freq).map leafRec) b.codeLen := by
    rw [hmax, BitVec.toNat_ofNat, Nat.mod_eq_of_lt (hlongest ▸ (codeLenAt b.codeLen r.sym).isLt)]
  rw [hmaxNat]
  refine ⟨fun s hs => hbound (leafRec (s, freqAt b.freq s)) ?_, ?_⟩
  · rw [presentEntries_eq_map]
    exact List.mem_map_of_mem (List.mem_map_of_mem hs)
  · obtain ⟨e, he, rfl⟩ := List.mem_map.1 hr
    exact ⟨e.1, List.mem_map_of_mem he, hlongest⟩

end codes

/-- Settles O28: the completion leaves a block whose code table is that of its tree, and the tree's paths are the codes. -/
theorem genCodesGivesPaths : Obligations.GenCodesGivesPaths := by
  intro s hinv hvalid
  have hexec : exec .genCodes s = .next (s.withBlk (s.blk.putCodes.finish .ok)) := by
    rw [exec_eq, show runOf .genCodes s.blk = .ok s.blk.putCodes from if_neg (by simp [hvalid])]; rfl
  have hdone : (s.blk.putCodes.finish .ok).Inv := (hinv.putCodes hvalid).finish (by decide) (by decide)
  have htree := hdone.holdsTree hvalid
  have hcodes := hdone.holdsCodes rfl
  have hcount := htree.nodeCount_add_one
  rw [presentSymbols_length] at hcount
  have hmax := htree.maxLen_spec hcodes
  obtain ⟨T, hT⟩ := htree.codeFacts_of_codes hcodes
  refine ⟨_, hexec, fun sym hsym => ?_, fun sym hsym => ?_, htree.wlen_toNat hcodes, ?_⟩
  · have hmem := (mem_presentSymbols s.blk.freq sym).2 hsym
    refine ⟨fun h1 => htree.codeOf_single hcodes ?_ hmem, fun h1 => htree.codeOf_leadsToLeaf hcodes ?_ hmem,
      hmax.1 sym hmem⟩
    · rw [State.withBlk_blk] at h1; omega
    · rw [State.withBlk_blk] at h1; omega
  · exact hT.absent sym (by rw [mem_presentSymbols]; exact not_not.2 hsym)
  · obtain ⟨sym, hmem, hlen⟩ := hmax.2
    exact ⟨sym, (mem_presentSymbols _ _).1 hmem, hlen⟩

end Sys2Proof.Machine
end

section
/-! The registers: the host's reads and writes, the values after reset, and what the read commands return (10_state.md
R16, R29, R35, R37). -/

namespace Sys2Proof.Machine

/-! ### The window (R16) -/

/-- The registers of the window in the order of their offsets (R16). -/
def windowRegs : List Reg :=
  [.cmd, .arg, .status, .errAcc, .result0, .result1, .treeInfo, .totalLo, .totalHi, .wlenLo, .wlenHi, .maxLen,
    .nodeInfo, .reserved 0, .reserved 1, .id, .codeBits 0, .codeBits 1, .codeBits 2, .codeBits 3, .codeBits 4,
    .codeBits 5, .codeBits 6, .codeBits 7, .reserved 2, .reserved 3, .reserved 4, .reserved 5, .reserved 6,
    .reserved 7, .reserved 8, .reserved 9]

theorem statusWord_of_idle {b : Block} (h : b.phase = .idle) : statusWord b =
    0#15 ++ nsym b.freq ++ b.err ++ 0#1 ++ BitVec.ofBool b.codesValid ++ BitVec.ofBool b.treeValid ++ 0#1 := by
  rw [statusWord, h]; rfl

/-- What a read while Idle does (R81). -/
theorem step_of_idle_read {s : State} {r : Reg} {rest : List Input} (h : hostTurn s (.rd (regOffset r) 4) rest)
    (hidle : s.blk.phase = .idle) : step s = .next
      { blk := s.blk
        env := { s.env with
          inputs := rest, countdown := s.env.countdown - 1, reads := s.env.reads ++ [idleWord s.blk r] } } := by
  rw [step_of_read h (regAt_regOffset r)]
  simp [hostRead, hidle, busRead, Env.takeDraw, Env.record, Env.tick, State.withEnv, State.withInputs]

/-- Settles O9: the words of the window, offset by offset, are those of its 32 registers. -/
theorem idleReadReturnsRegister : Obligations.IdleReadReturnsRegister := by
  intro s off v rest hturn hidle hv
  have hword : (off, v) ∈ windowRegs.map fun r => (regOffset r, idleWord s.blk r) := by
    simpa [windowRegs, regOffset, idleWord, statusWord_of_idle hidle, errAccWord, treeInfoWord, totalLoWord, totalHiWord,
      wlenLoWord, wlenHiWord, maxLenWord, Config.idWord] using hv
  obtain ⟨r, -, hr⟩ := List.mem_map.1 hword
  obtain ⟨rfl, rfl⟩ := Prod.mk.inj hr
  exact step_of_idle_read hturn hidle

/-- Settles O8: the register at a defined offset other than 0x00 is ARG at 0x04, and none that a write changes
elsewhere. -/
theorem otherWritesSetArgOrNothing : Obligations.OtherWritesSetArgOrNothing := by
  intro s off v rest hturn halign hpos hle
  obtain ⟨r, hr⟩ := Option.isSome_iff_exists.1 ((regAt_isSome off).trans (by simp [halign, hle]))
  have hoff := regOffset_of_regAt hr
  have hcmd : r ≠ .cmd := by rintro rfl; simp [← hoff, regOffset] at hpos
  have hblk : busWrite s.blk r v = if off = 0x04 then { s.blk with arg := v } else s.blk := by
    rcases busWrite_cases s.blk r v with ⟨e, -⟩ | ⟨e, -⟩ | ⟨rfl, e⟩ | ⟨-, harg, e⟩
    · exact absurd e hcmd
    · exact absurd e hcmd
    · exact e.trans (if_pos hoff.symm).symm
    · refine e.trans (if_neg ?_).symm
      rintro rfl
      exact harg (Option.some.inj hr).symm
  rw [step_of_write hturn hr, hostWrite, hblk, if_neg (mt And.left hcmd)]
  rfl

/-! ### Reset (R37, R185) -/

theorem step_of_resetOn {s : State} {rest : List Input} (turn : engineTurn s = false)
    (next : s.env.inputs = .resetOn :: rest) : step s = .next ((applyReset s).withInputs rest) := by
  simp [step, turn, next, inputStep]

/-- "A host access while reset is held" is refused, and the engine does not move then (R185). -/
theorem step_of_access_during_reset {s : State} {op : HostOp} {rest : List Input} (held : s.env.resetHeld = true)
    (next : s.env.inputs = .host op :: rest) : step s = .refused .accessDuringReset := by
  have turn : engineTurn s = false := by simp [engineTurn, held]
  simp [step, turn, next, inputStep, hostStep, held]

theorem nsym_zero : nsym (Vector.replicate 256 0#32) = 0#9 := (nsym_eq_zero_iff _).2 presentEntries_zero

/-- "Every register reads 0 but ID" after reset (R37). -/
theorem idleWord_reset (r : Reg) : idleWord Block.reset r = if r = .id then 0x48554631#32 else 0#32 := by
  cases r with
  | status =>
    rw [idleWord, statusWord_of_idle rfl, show nsym Block.reset.freq = 0#9 from nsym_zero]
    decide
  | codeBits k => simp [idleWord, Block.reset]
  | _ => rfl

/-- Settles O13: the only block in question is that of reset. -/
theorem resetGivesResetValues : Obligations.ResetGivesResetValues := by
  refine ⟨fun b hb => ?_, fun s rest turn next => ⟨_, step_of_resetOn turn next, rfl, rfl⟩,
    fun s op rest held next => step_of_access_during_reset held next⟩
  have hreset : b = Block.reset := by
    rcases hb with hb | ⟨s, t, rest, turn, next, hstep, hb⟩
    · exact hb
    · rw [step_of_resetOn turn next] at hstep
      injection hstep with e
      rw [hb, ← e]; rfl
  subst hreset
  exact ⟨rfl, rfl, rfl, rfl, rfl, rfl, rfl, rfl, rfl, rfl, rfl, rfl, rfl, rfl, fun k => by simp [Block.reset],
    fun k => by simp [Block.reset], idleWord_reset⟩

/-! ### The read commands (R29) -/

/-- Settles O21: READ_FREQ has no failing branch. -/
theorem readFreqReturnsCount : Obligations.ReadFreqReturnsCount := by
  intro s sym
  rw [exec_eq]; rfl

/-- Settles O24: the hypotheses rule out both failing branches. -/
theorem readNodeReturnsRecord : Obligations.ReadNodeReturnsRecord := by
  intro s htree hlt
  have hrun : runReadNode s.blk = .ok _ := (if_neg (by simp [htree])).trans (if_neg (BitVec.not_le.2 hlt))
  rw [exec_eq, runOf, hrun]; rfl

/-- Settles O29: the hypothesis rules out the failing branch. -/
theorem readCodeReturnsCode : Obligations.ReadCodeReturnsCode := by
  intro s sym hcodes
  have hrun : runReadCode sym s.blk = .ok _ := if_neg (by simp [hcodes])
  rw [exec_eq, runOf, hrun]; rfl

end Sys2Proof.Machine
end

section
/-! The host's accesses: which have a meaning, and a program of such accesses never stops (20_memory.md R50,
70_reset_and_hazards.md R185). -/

namespace Sys2Proof.Machine

/-! ### Defined and undefined accesses (R50) -/

theorem wellFormedAccess_iff (off bytes : Nat) :
    wellFormedAccess off bytes = true ↔ bytes = 4 ∧ off % 4 = 0 ∧ off ≤ 0x7C := by
  simp [wellFormedAccess, and_assoc]

theorem accessReg_eq_none_iff (off bytes : Nat) : accessReg off bytes = none ↔ wellFormedAccess off bytes = false := by
  rw [← accessReg_isSome, Option.isSome_eq_false_iff, Option.isNone_iff_eq_none]

/-- A defined operation made while reset is released has a meaning. -/
theorem hostStep_of_wellFormed {s : State} {op : HostOp} (held : s.env.resetHeld = false) (hop : op.wellFormed = true)
    (rest : List Input) : ∃ t, hostStep op rest s = .next t := by
  cases op with
  | rd off bytes =>
    obtain ⟨r, hr⟩ := Option.isSome_iff_exists.1 ((accessReg_isSome off bytes).trans hop)
    exact ⟨(hostRead r s).withInputs rest, by simp [hostStep, held, hr]⟩
  | wr off bytes v =>
    obtain ⟨r, hr⟩ := Option.isSome_iff_exists.1 ((accessReg_isSome off bytes).trans hop)
    exact ⟨(hostWrite r v s).withInputs rest, by simp [hostStep, held, hr]⟩
  | wait => exact ⟨hostPoll rest s, by simp [hostStep, held]⟩

/-- "A model refuses a program that performs one" (R50). -/
theorem hostStep_of_not_wellFormed {s : State} {op : HostOp} (held : s.env.resetHeld = false)
    (hop : op.wellFormed = false) (rest : List Input) : hostStep op rest s = .refused .undefinedAccess := by
  cases op with
  | rd off bytes =>
    have hnone := (accessReg_eq_none_iff off bytes).2 hop
    simp [hostStep, held, hnone]
  | wr off bytes v =>
    have hnone := (accessReg_eq_none_iff off bytes).2 hop
    simp [hostStep, held, hnone]
  | wait => cases hop

/-- At the host's turn the operation alone decides whether the step has a meaning. -/
theorem step_next_or_refused_of_hostTurn {s : State} {op : HostOp} {rest : List Input} (hturn : hostTurn s op rest) :
    (op.wellFormed = true → ∃ t, step s = .next t) ∧
    (op.wellFormed = false → step s = .refused .undefinedAccess) := by
  have ⟨_, held, _⟩ := hturn
  rw [step_of_hostTurn hturn]
  exact ⟨fun hop => hostStep_of_wellFormed held hop rest, fun hop => hostStep_of_not_wellFormed held hop rest⟩

/-- Settles O11: the width and the offset, of a read or of a write, say whether the operation is well formed. -/
theorem undefinedAccessIsRefused : Obligations.UndefinedAccessIsRefused := by
  intro s off bytes v rest hturn
  rw [← wellFormedAccess_iff, Bool.not_eq_true]
  exact hturn.elim step_next_or_refused_of_hostTurn step_next_or_refused_of_hostTurn

/-! ### A program of defined accesses (R50, R170, R185) -/

theorem wellFormedInputs_host {held : Bool} {op : HostOp} {rest : List Input}
    (h : wellFormedInputs held (.host op :: rest) = true) :
    held = false ∧ op.wellFormed = true ∧ wellFormedInputs held rest = true := by
  simpa [wellFormedInputs, and_assoc] using h

@[simp] theorem hostWrite_resetHeld (r : Reg) (v : Word) (s : State) :
    (hostWrite r v s).env.resetHeld = s.env.resetHeld := by
  simp only [hostWrite]
  split <;> simp

@[simp] theorem hostPoll_resetHeld (rest : List Input) (s : State) :
    (hostPoll rest s).env.resetHeld = s.env.resetHeld := by
  simp only [hostPoll]
  split <;> simp

/-- A poll is over or comes again (R74). -/
theorem hostPoll_inputs (rest : List Input) (s : State) :
    (hostPoll rest s).env.inputs = rest ∨ (hostPoll rest s).env.inputs = s.env.inputs := by
  simp only [hostPoll]
  split <;> simp

/-- Every completion has a meaning (R170). -/
theorem engineStep_next (s : State) : ∃ t, engineStep s = .next t := by
  cases cmd : decode s.blk.curCmd with
  | command i => exact ⟨_, by simp only [engineStep, cmd, exec_eq]; rfl⟩
  | illegal why => exact ⟨_, by simp only [engineStep, cmd, execIllegal]; rfl⟩

theorem step_next_of_wellFormed {s : State} (hwf : wellFormedInputs s.env.resetHeld s.env.inputs = true) :
    ∃ t, step s = .next t := by
  cases turn : engineTurn s with
  | true => simpa [step, turn] using engineStep_next s
  | false =>
    cases next : s.env.inputs with
    | nil => exact ⟨s, by simp [step, turn, next]⟩
    | cons i rest =>
      have hstep : step s = inputStep i rest s := by simp [step, turn, next]
      rw [hstep]
      cases i with
      | host op =>
        obtain ⟨held, hop, -⟩ := wellFormedInputs_host (next ▸ hwf)
        exact hostStep_of_wellFormed held hop rest
      | resetOn => exact ⟨_, rfl⟩
      | resetOff => exact ⟨_, rfl⟩

/-- Each step leaves the program as it was or takes its first input off it. -/
theorem step_keeps_wellFormedInputs {s t : State} (hwf : wellFormedInputs s.env.resetHeld s.env.inputs = true)
    (h : step s = .next t) : wellFormedInputs t.env.resetHeld t.env.inputs = true := by
  have of_host {op : HostOp} {rest : List Input} (next : s.env.inputs = .host op :: rest) :
      wellFormedInputs s.env.resetHeld rest = true := by
    obtain ⟨-, -, hrest⟩ := wellFormedInputs_host (next ▸ hwf)
    exact hrest
  rcases step_cases h with ⟨-, i, -, rfl⟩ | ⟨-, why, -, rfl⟩ | ⟨-, -, rfl⟩ | ⟨-, -, off, r, rest, next, -, rfl⟩ |
    ⟨-, -, off, v, r, rest, next, -, rfl⟩ | ⟨-, -, rest, next, rfl⟩ | ⟨-, rest, next, rfl⟩ | ⟨-, rest, next, rfl⟩
  · exact hwf
  · exact hwf
  · exact hwf
  · simpa using of_host next
  · simpa using of_host next
  · rcases hostPoll_inputs rest s with hover | hagain
    · simpa [hover] using of_host next
    · simpa [hagain] using hwf
  · simpa [next, wellFormedInputs, applyReset] using hwf
  · simpa [next, wellFormedInputs, releaseReset] using hwf

/-- Settles O15: well-formedness of the inputs gives a next state, and every step keeps it. -/
theorem definedProgramNeverStops : Obligations.DefinedProgramNeverStops := by
  intro s hwf
  obtain ⟨t, ht⟩ := step_next_of_wellFormed hwf
  exact ⟨t, ht, step_keeps_wellFormedInputs hwf ht⟩

end Sys2Proof.Machine
end

section
/-! What a completion reads: not ARG (20_memory.md R59, 30_encoding.md R65), and no tree or code that an earlier command
has invalidated (20_memory.md R60, 70_reset_and_hazards.md R193). -/

namespace Sys2Proof.Machine

/-! ### ARG (R59, R65) -/

/-- A run with another value in ARG of the state its effects leave. -/
def Run.writeArg (v : Word) : Run → Run
  | .ok effects => .ok (effects.writeArg v)
  | .fail code => .fail code

/-- Every rule's conditions and effects read `cur_arg` and not ARG, so writing ARG goes inside each branch (R65). -/
theorem runOf_writeArg (i : Instr) (b : Block) (v : Word) : runOf i (b.writeArg v) = (runOf i b).writeArg v := by
  cases i with
  | nop | clear | setFreq s | readFreq s => rfl
  | countByte s | buildTree | readNode | genCodes | readCode s =>
    simp only [runOf, runCountByte, runBuildTree, runReadNode, runGenCodes, runReadCode, apply_ite (Run.writeArg v)]
    rfl

theorem Block.complete_writeArg (b : Block) (r : Run) (v : Word) :
    (b.writeArg v).complete (r.writeArg v) = (b.complete r).writeArg v := by
  cases r <;> rfl

/-- Settles O39: writing ARG commutes with the run and with the completion. -/
theorem commandsIgnoreArgRegister : Obligations.CommandsIgnoreArgRegister := by
  intro i s t v hexec
  rw [exec_eq] at hexec
  injection hexec with e
  subst e
  show exec i (s.withBlk (s.blk.writeArg v)) = .next (s.withBlk ((s.blk.complete (runOf i s.blk)).writeArg v))
  rw [exec_eq, State.withBlk_blk, runOf_writeArg, ← Block.complete_writeArg]
  rfl

/-! ### What a completion makes of TREE_VALID and CODES_VALID (R21, R22) -/

section completion

variable {i : Instr} {b c : Block} (h : CompletionOf i b c)

include h

theorem CompletionOf.treeValid_imp (hc : c.treeValid = true) : b.treeValid = true ∨ i = .buildTree := by
  cases h with
  | tree cmd _ _ => exact .inr cmd
  | freq _ _ e => simp [e] at hc
  | reports _ _ _ e | codes _ _ e | results _ _ _ _ _ e => exact .inl (by simpa [e] using hc)

theorem CompletionOf.codesValid_imp (hc : c.codesValid = true) :
    b.codesValid = true ∨ (b.treeValid = true ∧ i = .genCodes) := by
  cases h with
  | codes cmd valid _ => exact .inr ⟨valid, cmd⟩
  | freq _ _ e | tree _ _ e => simp [e] at hc
  | reports _ _ _ e | results _ _ _ _ _ e => exact .inl (by simpa [e] using hc)

end completion

theorem execAll_cons (i : Instr) (cs : List Instr) (s : State) :
    execAll (i :: cs) s = execAll cs (s.complete (runOf i s.blk)) := by
  rw [execAll, exec_eq]

/-- A tree there is after a list of commands was there before it or is one of its own (R60). -/
theorem execAll_treeValid_imp {cs : List Instr} {s u : State} (h : execAll cs s = .next u)
    (hu : u.blk.treeValid = true) : s.blk.treeValid = true ∨ .buildTree ∈ cs := by
  induction cs generalizing s with
  | nil =>
    injection h with e
    exact .inl (e ▸ hu)
  | cons i cs ih =>
    rw [execAll_cons] at h
    rcases ih h with htree | hmem
    · rcases (completionOf_runOf i s.blk).treeValid_imp htree with htree | rfl
      · exact .inl htree
      · exact .inr List.mem_cons_self
    · exact .inr (List.mem_cons_of_mem i hmem)

/-- Codes there are after a list of commands were there before it, or one of its GEN_CODES made them: of a tree there was
before it, or of one that a BUILD_TREE before that GEN_CODES made (R60). -/
theorem execAll_codesValid_imp {cs : List Instr} {s u : State} (h : execAll cs s = .next u)
    (hu : u.blk.codesValid = true) :
    s.blk.codesValid = true ∨ (s.blk.treeValid = true ∧ .genCodes ∈ cs) ∨ [.buildTree, .genCodes].Sublist cs := by
  induction cs generalizing s with
  | nil =>
    injection h with e
    exact .inl (e ▸ hu)
  | cons i cs ih =>
    rw [execAll_cons] at h
    have hdone := completionOf_runOf i s.blk
    rcases ih h with hcodes | ⟨htree, hgen⟩ | hsub
    · rcases hdone.codesValid_imp hcodes with hcodes | ⟨htree, rfl⟩
      · exact .inl hcodes
      · exact .inr (.inl ⟨htree, List.mem_cons_self⟩)
    · rcases hdone.treeValid_imp htree with htree | rfl
      · exact .inr (.inl ⟨htree, List.mem_cons_of_mem i hgen⟩)
      · exact .inr (.inr ((List.singleton_sublist.2 hgen).cons_cons _))
    · exact .inr (.inr (hsub.cons i))

/-! ### Stale data (R60, R193) -/

/-- "Every completed CLEAR, COUNT_BYTE or SET_FREQ" leaves no tree and no codes (R60, R100). -/
theorem complete_invalidates {i : Instr} {b : Block} {sym : Symbol}
    (h : i = .clear ∨ i = .setFreq sym ∨ (i = .countByte sym ∧ freqAt b.freq sym ≠ 0xFFFFFFFF#32)) :
    (b.complete (runOf i b)).treeValid = false ∧ (b.complete (runOf i b)).codesValid = false := by
  rcases h with rfl | rfl | ⟨rfl, hmax⟩
  · exact ⟨rfl, rfl⟩
  · exact ⟨rfl, rfl⟩
  · simp [runOf, runCountByte, hmax]

theorem exec_readNode_of_noTree {s : State} (h : s.blk.treeValid = false) :
    exec .readNode s = .next (s.withBlk (s.blk.finish .invalidInput)) := by
  have hrun : runOf .readNode s.blk = .fail .invalidInput := if_pos h
  rw [exec_eq, hrun]
  rfl

theorem exec_readCode_of_noCodes {s : State} (sym : Symbol) (h : s.blk.codesValid = false) :
    exec (.readCode sym) s = .next (s.withBlk (s.blk.finish .invalidInput)) := by
  have hrun : runOf (.readCode sym) s.blk = .fail .invalidInput := if_pos h
  rw [exec_eq, hrun]
  rfl

/-- Settles O40: the first command leaves no tree and no codes, and the commands after it make none but their own. -/
theorem staleDataIsUnreadable : Obligations.StaleDataIsUnreadable := by
  intro i cs sym other s t u hi hexec hall
  rw [exec_eq] at hexec
  injection hexec with e
  subst e
  obtain ⟨htree, hcodes⟩ := complete_invalidates hi
  refine ⟨fun hbuild => exec_readNode_of_noTree ?_, fun hgen => exec_readCode_of_noCodes other ?_⟩
  · refine Bool.eq_false_iff.2 fun hu => ?_
    simpa [htree, hbuild] using execAll_treeValid_imp hall hu
  · refine Bool.eq_false_iff.2 fun hu => ?_
    simpa [htree, hcodes, hgen] using execAll_codesValid_imp hall hu

end Sys2Proof.Machine
end

section
/-! Command words: what decodes to a command, what is illegal, the poll of WAIT and SET_FREQ's completion
(30_encoding.md R63 to R75). -/

namespace Sys2Proof

/-! ### The decoder, by the three fields of the word (R63, R67) -/

/-- The opcode map takes a command's opcode back to the command, given the symbol of one that has a symbol. -/
theorem decodeOp_opcode {i : Instr} {sym : Symbol} (hsym : ∀ s, i.sym? = some s → sym = s) :
    decodeOp i.opcode sym = .command i := by
  cases i with
  | nop | clear | buildTree | readNode | genCodes => rfl
  | countByte s | setFreq s | readFreq s | readCode s => rw [hsym s rfl]; rfl

/-- `decode_command_fields`, with its converse: the fields alone say which command a word is. -/
theorem decode_eq_command_iff {w : Word} {i : Instr} : decode w = .command i ↔
    rsvField w = 0 ∧ opField w = i.opcode ∧ ∀ s, i.sym? = some s → symField w = s := by
  refine ⟨decode_command_fields, fun ⟨hrsv, hop, hsym⟩ => ?_⟩
  rw [decode, if_neg (not_not_intro hrsv), hop, decodeOp_opcode hsym]

theorem decode_encode (i : Instr) : decode (encode i) = .command i :=
  decode_eq_command_iff.2 ⟨rsvField_encode i, opField_encode i, fun s hs => by simp [hs]⟩

/-- Only the SYM bits of a word that decodes to a command are not the command's own. -/
theorem eq_append_opcode_of_decode {w : Word} {i : Instr} (h : decode w = .command i) :
    w = 0#16 ++ symField w ++ i.opcode := by
  obtain ⟨hrsv, hop, -⟩ := decode_command_fields h
  calc w = rsvField w ++ symField w ++ opField w := word_eq_fields w
    _ = 0#16 ++ symField w ++ i.opcode := by rw [hrsv, hop]; rfl

/-- Settles O2: both directions by the fields of the word; SYM is the command's own symbol, or is ignored. -/
theorem decodeEncodeRoundTrip : Obligations.DecodeEncodeRoundTrip := by
  intro i _
  refine ⟨decode_encode i, fun w hw => ?_⟩
  have hword := eq_append_opcode_of_decode hw
  obtain ⟨-, -, hsym⟩ := decode_command_fields hw
  cases hs : i.sym? with
  | none => exact .inr ⟨rfl, symField w, hword⟩
  | some s =>
    left
    rw [hsym s hs] at hword
    rw [hword, encode, hs, Option.getD_some]

/-! ### The mask of R66 -/

/-- The mask keeps RSV and OP and empties SYM (R64, R66). -/
theorem and_mask_eq_fields (w : Word) : w &&& 0xFFFF00FF#32 = rsvField w ++ 0#8 ++ opField w := by
  have hmask : 0xFFFF00FF#32 = BitVec.allOnes 16 ++ 0#8 ++ BitVec.allOnes 8 := by decide
  calc w &&& 0xFFFF00FF#32
      = (rsvField w ++ symField w ++ opField w) &&& (BitVec.allOnes 16 ++ 0#8 ++ BitVec.allOnes 8) := by
        rw [← word_eq_fields, hmask]
    _ = rsvField w ++ 0#8 ++ opField w := by
        simp only [BitVec.and_append, BitVec.and_allOnes, BitVec.and_zero]

theorem and_mask_eq_opcode_iff {w : Word} {op : BitVec 8} :
    w &&& 0xFFFF00FF#32 = 0#16 ++ 0#8 ++ op ↔ rsvField w = 0 ∧ opField w = op := by
  rw [and_mask_eq_fields]
  refine ⟨fun h => ⟨?_, ?_⟩, fun ⟨hrsv, hop⟩ => by rw [hrsv, hop]; rfl⟩
  · simpa only [rsvField_append, BitVec.ofNat_eq_ofNat] using congrArg rsvField h
  · simpa only [opField_append] using congrArg opField h

/-- R66, for a command whose symbol, where it takes one, is the SYM field of the word. -/
theorem and_mask_eq_iff_decode {w : Word} {i : Instr} (op : BitVec 8) (hop : i.opcode = op)
    (hsym : ∀ s, i.sym? = some s → symField w = s) :
    w &&& 0xFFFF00FF#32 = 0#16 ++ 0#8 ++ op ↔ decode w = .command i := by
  rw [and_mask_eq_opcode_iff, decode_eq_command_iff, hop, and_iff_left hsym]

/-- Settles O3: R66 at each of the nine commands; the symbol of one that takes it is SYM. -/
theorem maskedWordSelectsCommand : Obligations.MaskedWordSelectsCommand := by
  intro w
  have hnone : ∀ s, (none : Option Symbol) = some s → symField w = s := nofun
  have hsome : ∀ s, some (symField w) = some s → symField w = s := fun _ => Option.some.inj
  exact ⟨and_mask_eq_iff_decode 0x00 rfl hnone, and_mask_eq_iff_decode 0x01 rfl hnone,
    and_mask_eq_iff_decode 0x02 rfl hsome, and_mask_eq_iff_decode 0x03 rfl hsome,
    and_mask_eq_iff_decode 0x04 rfl hsome, and_mask_eq_iff_decode 0x10 rfl hnone,
    and_mask_eq_iff_decode 0x11 rfl hnone, and_mask_eq_iff_decode 0x20 rfl hnone,
    and_mask_eq_iff_decode 0x21 rfl hsome⟩

/-- Settles O1: the legal words are encodings of their commands; the other two are evaluated. -/
theorem specWordsDecode : Obligations.SpecWordsDecode :=
  ⟨decode_encode .nop, decode_encode .clear, decode_encode (.countByte 0x61), decode_encode (.countByte 0x62),
    decode_encode (.countByte 0x00), decode_encode (.countByte 0xFF), decode_encode (.setFreq 0x63),
    decode_encode (.readFreq 0x61), decode_encode .buildTree, decode_encode .readNode, decode_encode .genCodes,
    decode_encode (.readCode 0x61), decode_encode (.readCode 0x72), by decide, by decide⟩

/-! ### Illegal words (R68, R69) -/

/-- The nine assigned opcodes (R66). -/
theorem opcode_mem_assigned (i : Instr) :
    i.opcode ∈ [0x00#8, 0x01#8, 0x02#8, 0x03#8, 0x04#8, 0x10#8, 0x11#8, 0x20#8, 0x21#8] := by
  cases i <;> simp [Instr.opcode]

/-- "Some bit of RSV is set" (R68) or the opcode is unassigned (R69): no command has such a word. -/
theorem exists_decode_eq_illegal {w : Word} (h : rsvField w ≠ 0 ∨
    opField w ∉ [0x00#8, 0x01#8, 0x02#8, 0x03#8, 0x04#8, 0x10#8, 0x11#8, 0x20#8, 0x21#8]) :
    ∃ why, decode w = .illegal why := by
  cases hw : decode w with
  | illegal why => exact ⟨why, rfl⟩
  | command i =>
    obtain ⟨hrsv, hop, -⟩ := decode_command_fields hw
    rcases h with hset | hunassigned
    · exact absurd hrsv hset
    · exact absurd (hop ▸ opcode_mem_assigned i) hunassigned

end Sys2Proof

namespace Sys2Proof.Machine

/-- Acceptance of any word but CLEAR's only latches (R83). -/
theorem Block.accept_of_ne_clear {b : Block} {v : Word} (h : decode v ≠ .command .clear) :
    b.accept v = { b with curCmd := v, curArg := b.arg, phase := .busy } := by
  rw [Block.accept, if_neg h]

/-- Settles O4: such a word decodes to an illegal word, so it is not CLEAR, and its completion only reports. -/
theorem illegalWordFailsWithCode6 : Obligations.IllegalWordFailsWithCode6 := by
  intro s w rest hw
  obtain ⟨why, hdecode⟩ := exists_decode_eq_illegal hw
  refine ⟨fun hturn hidle => ⟨_, step_of_write (r := .cmd) hturn rfl, ?_⟩, fun turn hcmd => ?_⟩
  · calc busWrite s.blk .cmd w = s.blk.accept w := if_pos hidle
      _ = _ := Block.accept_of_ne_clear (by simp [hdecode])
  · exact step_of_illegal turn (hcmd ▸ hdecode)

/-! ### WAIT (R74) -/

theorem step_of_wait {s : State} {rest : List Input} (h : hostTurn s .wait rest) :
    step s = .next (hostPoll rest s) := by
  have ⟨_, held, _⟩ := h
  simp only [step_of_hostTurn h, hostStep, held, Bool.false_eq_true, if_false]

/-- A poll while Idle is over; it draws nothing (R81). -/
theorem hostPoll_of_idle {s : State} (rest : List Input) (h : s.blk.phase = .idle) :
    hostPoll rest s = (hostRead .status s).withInputs rest := by
  simp only [hostPoll, status_bit0, h]; rfl

/-- A poll while Busy comes again. -/
theorem hostPoll_of_busy {s : State} (rest : List Input) (h : s.blk.phase = .busy) :
    hostPoll rest s = hostRead .status s := by
  simp only [hostPoll, status_bit0, h]; rfl

/-- Settles O12: bit 0 of the word read is the phase, whatever is drawn, and it decides whether the loop is over. -/
theorem waitPollsUntilIdle : Obligations.WaitPollsUntilIdle := by
  intro s rest hturn
  have hbit := status_bit0 s.blk (Config.draw s.env.draws)
  refine ⟨fun hidle => ⟨_, by rw [hbit, hidle]; rfl, ?_⟩, fun hbusy => ⟨_, by rw [hbit, hbusy]; rfl, ?_⟩⟩
  · rw [step_of_wait hturn, hostPoll_of_idle rest hidle, hostRead, hidle]; rfl
  · rw [step_of_wait hturn, hostPoll_of_busy rest hbusy, hostRead, hbusy]; rfl

/-! ### SET_FREQ (R65, R104) -/

/-- Settles O20: SET_FREQ has no failing branch, and its operand is the whole of `cur_arg`. -/
theorem setFreqLoadsOperand : Obligations.SetFreqLoadsOperand := by
  intro s sym
  rw [exec_eq]; rfl

end Sys2Proof.Machine
end

section
/-! The command interface: acceptance, rejection, reads while Busy, and the coming of the engine's turn
(40_command_interface.md R81 to R93). -/

namespace Sys2Proof.Machine

/-! ### The engine's turn (R84, R91) -/

theorem engineTurn_iff (s : State) : engineTurn s = true ↔
    s.blk.phase = .busy ∧ s.env.resetHeld = false ∧ (s.env.countdown = 0 ∨ s.env.inputs = []) := by
  simp [engineTurn, and_assoc]

theorem step_eq_exec {s : State} {i : Instr} (turn : engineTurn s = true) (cmd : decode s.blk.curCmd = .command i) :
    step s = exec i s := by
  rw [step_of_command turn cmd, exec_eq]

theorem engineTurn_withFetchWord (s : State) (nbits w : Nat) : engineTurn (s.withFetchWord nbits w) = true :=
  (engineTurn_iff _).2 ⟨rfl, rfl, .inl rfl⟩

@[simp] theorem withFetchWord_curCmd (s : State) (w : Word) : (s.withFetchWord 32 w.toNat).blk.curCmd = w := by
  simp [State.withFetchWord, Nat.mod_eq_of_lt w.isLt]

/-- Settles O5: the engine's turn by its definition, and `withFetchWord` places its word there. -/
theorem stepRunsDecodedCommand : Obligations.StepRunsDecodedCommand := by
  refine ⟨engineTurn_iff, fun s i => step_eq_exec, fun s w i hw => ?_⟩
  exact step_eq_exec (engineTurn_withFetchWord s 32 w.toNat) (by rw [withFetchWord_curCmd, hw])

/-! ### A command's progress to its completion (R93) -/

/-- A command is in progress, and what is still to come is defined accesses and no reset. -/
structure State.Pending (s : State) : Prop where
  busy     : s.blk.phase = .busy
  released : s.env.resetHeld = false
  defined  : wellFormedInputs false s.env.inputs = true
  noReset  : .resetOn ∉ s.env.inputs

/-- `cur_cmd` and `cur_arg` stay as latched until the completion (R33, R59): an outside step that is no reset touches
neither them nor the phase. -/
theorem step_keeps_command {s t : State} (h : step s = .next t) (turn : engineTurn s = false)
    (busy : s.blk.phase = .busy) (noReset : .resetOn ∉ s.env.inputs) :
    t.blk.phase = .busy ∧ t.blk.curCmd = s.blk.curCmd ∧ t.blk.curArg = s.blk.curArg := by
  cases step_blk h with
  | completes _ engine _ _ | illegal _ engine _ _ => exact absurd engine (by simp [turn])
  | reset rest _ next _ => exact absurd (next ▸ List.mem_cons_self) noReset
  | accepts _ _ _ idle _ => exact absurd (idle.symm.trans busy) nofun
  | rejects _ _ _ _ e | writesArg _ _ e | keeps _ e => rw [e]; exact ⟨busy, rfl, rfl⟩

@[simp] theorem hostPoll_countdown (rest : List Input) (s : State) :
    (hostPoll rest s).env.countdown = s.env.countdown - 1 := by
  simp only [hostPoll]
  split <;> simp

/-- A write while Busy starts no command, so it only counts (R85; log entry 3). -/
theorem hostWrite_env_of_busy {s : State} (r : Reg) (v : Word) (busy : s.blk.phase = .busy) :
    (hostWrite r v s).env = s.env.tick := by
  simp [hostWrite, busy]

/-- An outside step while a command is in progress takes one off the countdown (R91; log entry 3) and brings no new
input. -/
theorem step_counts_down {s t : State} (h : step s = .next t) (turn : engineTurn s = false) (hs : s.Pending) :
    t.env.countdown = s.env.countdown - 1 ∧ t.env.resetHeld = false ∧ t.env.inputs ⊆ s.env.inputs := by
  have ⟨busy, released, _, noReset⟩ := hs
  rcases step_cases h with ⟨engine, -⟩ | ⟨engine, -⟩ | ⟨-, next, -⟩ | ⟨-, -, off, r, rest, next, -, rfl⟩ |
    ⟨-, -, off, v, r, rest, next, -, rfl⟩ | ⟨-, -, rest, next, rfl⟩ | ⟨-, rest, next, -⟩ | ⟨-, rest, next, rfl⟩
  · exact absurd engine (by simp [turn])
  · exact absurd engine (by simp [turn])
  · exact absurd ((engineTurn_iff s).2 ⟨busy, released, .inr next⟩) (by simp [turn])
  · simp [next, released]
  · simp [next, released, hostWrite_env_of_busy r v busy]
  · refine ⟨by simp, by simp [released], ?_⟩
    rcases hostPoll_inputs rest s with hover | hagain
    · simp [hover, next]
    · simp [hagain]
  · exact absurd (next ▸ List.mem_cons_self) noReset
  · simp [next, releaseReset]

/-- While it is not the engine's turn, the outside steps before the completion are not over. -/
theorem State.Pending.countdown_ne_zero {s : State} (hs : s.Pending) (turn : engineTurn s = false) :
    s.env.countdown ≠ 0 := fun h0 =>
  absurd ((engineTurn_iff s).2 ⟨hs.busy, hs.released, .inl h0⟩) (by simp [turn])

/-- A pending command's next outside step: there is one, and the command stays pending, one step nearer its
completion. -/
theorem State.Pending.step {s : State} (hs : s.Pending) (turn : engineTurn s = false) :
    ∃ t, Machine.step s = .next t ∧ t.Pending ∧ t.env.countdown + 1 = s.env.countdown ∧
      t.blk.curCmd = s.blk.curCmd ∧ t.blk.curArg = s.blk.curArg := by
  have hne := hs.countdown_ne_zero turn
  have hwf : wellFormedInputs s.env.resetHeld s.env.inputs = true := hs.released ▸ hs.defined
  obtain ⟨t, ht⟩ := step_next_of_wellFormed hwf
  obtain ⟨busy, hcmd, harg⟩ := step_keeps_command ht turn hs.busy hs.noReset
  obtain ⟨hcount, released, hsub⟩ := step_counts_down ht turn hs
  have defined := step_keeps_wellFormedInputs hwf ht
  rw [released] at defined
  exact ⟨t, ht, ⟨busy, released, defined, fun hmem => hs.noReset (hsub hmem)⟩, by omega, hcmd, harg⟩

theorem run_succ_of_step {s u : State} (h : step s = .next u) (k : Nat) :
    Sys2Proof.core.run (k + 1) s = Sys2Proof.core.run k u := by
  have hcore : Sys2Proof.core.step s = .next u := h
  simp only [Host.Core.run, hcore]

/-- R93's fairness with its bound, by induction on the outside steps still to come. -/
theorem State.Pending.engineTurn_comes (n : Nat) {s : State} (hs : s.Pending) (hn : s.env.countdown = n) :
    ∃ k t, k ≤ n ∧ Sys2Proof.core.run k s = .next t ∧ engineTurn t = true ∧
      t.blk.curCmd = s.blk.curCmd ∧ t.blk.curArg = s.blk.curArg := by
  induction n generalizing s with
  | zero => exact ⟨0, s, Nat.le_refl _, rfl, (engineTurn_iff s).2 ⟨hs.busy, hs.released, .inl hn⟩, rfl, rfl⟩
  | succ n ih =>
    cases turn : engineTurn s with
    | true => exact ⟨0, s, Nat.zero_le _, rfl, turn, rfl, rfl⟩
    | false =>
      obtain ⟨u, hstep, hu, hcount, hcmd, harg⟩ := hs.step turn
      obtain ⟨k, t, hk, hrun, hturn, hcmd', harg'⟩ := ih hu (by omega)
      refine ⟨k + 1, t, Nat.succ_le_succ hk, ?_, hturn, hcmd'.trans hcmd, harg'.trans harg⟩
      exact (run_succ_of_step hstep k).trans hrun

/-- Settles O14: a pending command stays pending while the countdown falls, and at 0 the engine moves. -/
theorem engineTurnComes : Obligations.EngineTurnComes := fun s busy released defined noReset =>
  State.Pending.engineTurn_comes s.env.countdown ⟨busy, released, defined, noReset⟩ rfl

/-! ### Acceptance and rejection (R83, R85) -/

/-- Settles O6: a write to CMD while Idle is an acceptance. -/
theorem acceptLatchesCommandAndArg : Obligations.AcceptLatchesCommandAndArg := by
  intro s v rest hturn idle
  rw [step_of_write (r := .cmd) hturn rfl, hostWrite, if_pos ⟨rfl, idle⟩, busWrite, if_pos idle]; rfl

/-- Settles O7: a write to CMD while Busy is a rejection, which raises code 5. -/
theorem rejectOnlyRecordsBusyReject : Obligations.RejectOnlyRecordsBusyReject := by
  intro s v rest hturn busy
  have notIdle : s.blk.phase ≠ .idle := by simp [busy]
  rw [step_of_write (r := .cmd) hturn rfl, hostWrite, if_neg (mt And.right notIdle), busWrite, if_neg notIdle]; rfl

/-! ### Reads while Busy (R81, R86) -/

/-- What a read while Busy does: it gives the register's word for the next draw, which it takes if the register is drawn. -/
theorem step_of_busy_read {s : State} {r : Reg} {rest : List Input} (h : hostTurn s (.rd (regOffset r) 4) rest)
    (busy : s.blk.phase = .busy) :
    ∃ t, step s = .next t ∧ t.blk = s.blk ∧
      t.env.reads = s.env.reads ++ [busyWord s.blk (Config.draw s.env.draws) r] ∧
      t.env.draws = s.env.draws + (readsDraw r).toNat := by
  refine ⟨_, step_of_read h (regAt_regOffset r), rfl, ?_, ?_⟩
  · simp [busRead, busy]
  · simp [hostRead, busy]

/-- Settles O10: the offset says which register is read, and so which row of R81's table is its word. -/
theorem busyReadIsDrawn : Obligations.BusyReadIsDrawn := by
  intro s off rest hturn busy halign hle
  obtain ⟨r, hr⟩ := Option.isSome_iff_exists.1 ((regAt_isSome off).trans (by simp [halign, hle]))
  obtain rfl := regOffset_of_regAt hr
  obtain ⟨t, hstep, hblk, hreads, hdraws⟩ := step_of_busy_read hturn busy
  refine ⟨t, _, hstep, hblk, hreads, ?_⟩
  cases r with
  | codeBits k =>
    have hoff : regOffset (.codeBits k) = 0x40 + 4 * k.val := rfl
    exact ⟨by omega, by omega, by omega, by omega, by omega, fun _ => ⟨rfl, hdraws⟩⟩
  | reserved k =>
    have hoff : regOffset (.reserved k) = 0x34 ∨ regOffset (.reserved k) = 0x38 ∨ 0x60 ≤ regOffset (.reserved k) := by
      simp only [regOffset]
      split <;> omega
    exact ⟨by omega, by omega, by omega, fun _ => rfl, by omega, by omega⟩
  | _ => simp [regOffset, busyWord, readsDraw, hdraws, Config.idWord]

/-! ### NOP and CLEAR (R88, R89) -/

/-- Settles O16: NOP's run has no effect, so its completion only reports OK. -/
theorem nopClearsErrOnly : Obligations.NopClearsErrOnly := by
  intro s
  rw [exec_eq]; rfl

/-- CLEAR ignores SYM (R64, R89). -/
theorem decode_clear (sym : Symbol) : decode (0#16 ++ sym ++ 0x01#8) = .command .clear :=
  decode_eq_command_iff.2 ⟨rsvField_append _ _ _, opField_append _ _ _, nofun⟩

/-- Settles O17: the completion empties the table and invalidates; the acceptance has cleared ERR_ACC. -/
theorem clearEmptiesTable : Obligations.ClearEmptiesTable := by
  refine ⟨fun s => ?_, fun s sym rest hturn idle => ?_⟩
  · rw [exec_eq]; rfl
  · exact ⟨_, acceptLatchesCommandAndArg s _ rest hturn idle, if_pos (decode_clear sym)⟩

end Sys2Proof.Machine
end

section
/-! The frequency table: COUNT_BYTE, the counting law, and the empty table (41_frequency_table.md R101 to R108). -/

namespace Sys2Proof.Machine

/-! ### COUNT_BYTE (R102, R107) -/

theorem exec_countByte_of_ne_max {s : State} {sym : Symbol} (h : freqAt s.blk.freq sym ≠ 0xFFFFFFFF#32) :
    exec (.countByte sym) s =
      .next (s.withBlk ((s.blk.setFreq sym (freqAt s.blk.freq sym + 1)).finish .ok)) := by
  have hrun : runOf (.countByte sym) s.blk = .ok _ := if_neg h
  rw [exec_eq, hrun]; rfl

/-- Below the largest count the increment does not wrap (R107). -/
theorem toNat_add_one_of_ne_max {v : Word} (h : v ≠ 0xFFFFFFFF#32) : (v + 1#32).toNat = v.toNat + 1 := by
  bv_omega

/-- Settles O18: the hypothesis rules out the failing branch and the wrap. -/
theorem countByteIncrements : Obligations.CountByteIncrements :=
  fun _ _ h => ⟨exec_countByte_of_ne_max h, toNat_add_one_of_ne_max h⟩

/-- Settles O19: the hypothesis is the condition of the failing branch, which raises code 4. -/
theorem countByteOverflowFails : Obligations.CountByteOverflowFails := by
  intro s sym hmax
  have hrun : runOf (.countByte sym) s.blk = .fail .countOverflow := if_pos hmax
  rw [exec_eq, hrun]; rfl

/-! ### The counting law (R103) -/

theorem freqAt_increment_toNat {freq : Vector Word 256} {sym : Symbol} (h : freqAt freq sym ≠ 0xFFFFFFFF#32)
    (b : Symbol) : (freqAt (writeFreq freq sym (freqAt freq sym + 1)) b).toNat =
      (freqAt freq b).toNat + if sym == b then 1 else 0 := by
  by_cases hb : b = sym
  · subst hb
    rw [freqAt_writeFreq_same, if_pos BEq.rfl]
    exact toNat_add_one_of_ne_max h
  · rw [freqAt_writeFreq_other freq _ hb, if_neg (by simpa using Ne.symm hb), Nat.add_zero]

theorem execAll_cons_of_next {i : Instr} {s t : State} (h : exec i s = .next t) (cs : List Instr) :
    execAll (i :: cs) s = execAll cs t := by
  rw [execAll, h]

/-- COUNT_BYTEs that cannot overflow add to each entry the number of its symbol's occurrences, from any table. -/
theorem execAll_countByte_freq (bytes : List Symbol) (s : State)
    (h : ∀ b, (freqAt s.blk.freq b).toNat + bytes.count b < 2 ^ 32) :
    ∃ t, execAll (bytes.map .countByte) s = .next t ∧
      ∀ b, (freqAt t.blk.freq b).toNat = (freqAt s.blk.freq b).toNat + bytes.count b := by
  induction bytes generalizing s with
  | nil => exact ⟨s, rfl, fun b => by simp⟩
  | cons sym bytes ih =>
    have hmax : freqAt s.blk.freq sym ≠ 0xFFFFFFFF#32 := by
      intro hmax
      have hsym := h sym
      rw [hmax, List.count_cons_self, BitVec.toNat_ofNat] at hsym
      omega
    have hcount : ∀ b, (freqAt (writeFreq s.blk.freq sym (freqAt s.blk.freq sym + 1)) b).toNat + bytes.count b =
        (freqAt s.blk.freq b).toNat + (sym :: bytes).count b := by
      intro b
      rw [freqAt_increment_toNat hmax, List.count_cons]
      omega
    obtain ⟨t, hexec, ht⟩ := ih (s.withBlk ((s.blk.setFreq sym (freqAt s.blk.freq sym + 1)).finish .ok))
      fun b => (hcount b).trans_lt (h b)
    exact ⟨t, (execAll_cons_of_next (exec_countByte_of_ne_max hmax) _).trans hexec, fun b => (ht b).trans (hcount b)⟩

section counts

variable {freq : Vector Word 256} {bytes : List Symbol} (h : ∀ b, (freqAt freq b).toNat = bytes.count b)

include h

/-- The present symbols of a table of counts are the distinct values counted. -/
theorem presentSymbols_perm_dedup : (presentSymbols freq).Perm bytes.dedup := by
  refine (List.perm_ext_iff_of_nodup (presentSymbols_nodup freq) bytes.nodup_dedup).2 fun b => ?_
  calc b ∈ presentSymbols freq ↔ freqAt freq b ≠ 0#32 := mem_presentSymbols freq b
    _ ↔ bytes.count b ≠ 0 := by rw [← h b, ne_eq, ne_eq, ← BitVec.toNat_inj, BitVec.toNat_zero]
    _ ↔ b ∈ bytes.dedup := by rw [List.mem_dedup, ← List.count_pos_iff, Nat.pos_iff_ne_zero]

theorem totalFreq_of_counts : totalFreq freq = bytes.length :=
  calc ((presentSymbols freq).map fun b => (freqAt freq b).toNat).sum
      = ((presentSymbols freq).map fun b => bytes.count b).sum := by simp only [h]
    _ = (bytes.dedup.map fun b => bytes.count b).sum := ((presentSymbols_perm_dedup h).map _).sum_eq
    _ = bytes.length := List.sum_map_count_dedup_eq_length bytes

theorem nsym_of_counts : (nsym freq).toNat = bytes.dedup.length := by
  rw [nsym_toNat, ← presentSymbols_length, (presentSymbols_perm_dedup h).length_eq]

end counts

/-- CLEAR empties the table (R89). -/
theorem exec_clear_freq (s : State) :
    ∃ t, exec .clear s = .next t ∧ ∀ b, freqAt t.blk.freq b = 0#32 :=
  ⟨_, exec_eq .clear s, freqAt_zero⟩

/-- Settles O41: CLEAR leaves every entry 0 and each COUNT_BYTE adds one to its own; the sum and NSYM are facts about any
table of counts. -/
theorem countingLaw : Obligations.CountingLaw := by
  intro bytes s hbytes
  obtain ⟨u, hclear, hzero⟩ := exec_clear_freq s
  obtain ⟨t, hexec, ht⟩ := execAll_countByte_freq bytes u fun b => by simpa [hzero] using hbytes b
  have hcounts : ∀ b, (freqAt t.blk.freq b).toNat = bytes.count b := fun b => by simpa [hzero] using ht b
  exact ⟨t, (execAll_cons_of_next hclear _).trans hexec, hcounts, totalFreq_of_counts hcounts, nsym_of_counts hcounts⟩

/-! ### The empty table (R108) -/

theorem presentEntries_eq_nil {freq : Vector Word 256} (h : ∀ sym, freqAt freq sym = 0#32) :
    presentEntries freq = [] := by
  simp [presentEntries_eq, h]

/-- Settles O22: a table of zeros has no present symbol, so BUILD_TREE takes its failing branch. -/
theorem buildTreeEmptyTableFails : Obligations.BuildTreeEmptyTableFails := by
  intro s hzero
  have hrun : runOf .buildTree s.blk = .fail .emptyInput := if_pos (presentEntries_eq_nil hzero)
  rw [exec_eq, hrun]; rfl

end Sys2Proof.Machine
end

section
/-! The shape of every tree that BUILD_TREE leaves (42_tree_builder.md R127, R129 to R131). -/

namespace Sys2Proof.Machine

/-- Index i is a child of node j (R116). -/
def Block.isChild (b : Block) (j i : Nat) : Prop := (b.nodeN j).left.toNat = i ∨ (b.nodeN j).right.toNat = i

/-- Leaving the working collection: what is active after node j is made is j itself, or was active and is no child of j
(R121). -/
theorem Block.activeAt_succ {b : Block} {n j i : Nat} (hn : n ≤ j) (hi : b.activeAt n (j + 1) i) :
    i = j ∨ (b.activeAt n j i ∧ i ≠ (b.nodeN j).left.toNat ∧ i ≠ (b.nodeN j).right.toNat) := by
  obtain ⟨hlt, hfree⟩ := hi
  obtain ⟨hleft, hright⟩ := hfree j hn (Nat.lt_succ_self j)
  rcases Nat.lt_succ_iff_lt_or_eq.1 hlt with hlt | rfl
  · exact .inr ⟨⟨hlt, fun k hnk hkj => hfree k hnk (Nat.lt_succ_of_lt hkj)⟩, hleft.symm, hright.symm⟩
  · exact .inl rfl

theorem Block.nodeBefore.weight_le {b : Block} {i j : Nat} (h : b.nodeBefore i j) :
    (b.nodeN i).weight.toNat ≤ (b.nodeN j).weight.toNat := by
  rcases h with h | ⟨h, -⟩
  · exact h.le
  · rw [h]

section store

variable {b : Block} (h : b.HoldsTree)

include h

theorem Block.HoldsTree.isLeaf_iff {k : Nat} (hk : k < b.nodeCount.toNat) :
    (b.nodeN k).isLeaf = true ↔ k < (presentSymbols b.freq).length := by
  constructor
  · intro hleaf
    by_contra hle
    rw [not_lt, presentSymbols_length] at hle
    simp [(h.inner_record hle hk).1] at hleaf
  · intro hlt
    rw [h.leaf_of_symbol (List.getElem?_eq_getElem hlt)]
    rfl

/-- "Their symbols are the n present symbols, each once, in ascending order" (R129). -/
theorem Block.HoldsTree.leaf_syms :
    ((List.range (presentSymbols b.freq).length).map fun k => (b.nodeN k).sym) = presentSymbols b.freq := by
  refine List.ext_getElem (by simp) fun k _ hk => ?_
  rw [List.getElem_map, List.getElem_range, h.leaf_of_symbol (List.getElem?_eq_getElem hk), leafRec_sym]

/-- When every round is done, ROOT alone is active (R122): any other index is the child of some node. -/
theorem Block.HoldsTree.exists_parent {i : Nat} (hi : i < b.nodeCount.toNat) (hne : i ≠ b.root.toNat) :
    ∃ j, (presentEntries b.freq).length ≤ j ∧ j < b.nodeCount.toNat ∧ b.isChild j i := by
  by_contra! hnone
  obtain ⟨hgood, hone⟩ := huffmanForest_good b.freq h.present
  obtain ⟨r, hr⟩ := List.length_eq_one_iff.1 hone
  have hactive : i ∈ (huffmanForest b.freq).active := (hgood.active i).2
    ⟨h.nodeCount_toNat ▸ hi, fun k hk1 hk2 => by
      have hk : k < b.nodeCount.toNat := h.nodeCount_toNat ▸ hk2
      have hchild := hnone k hk1 hk
      rw [Block.isChild, h.nodeN_eq hk] at hchild
      exact not_or.1 hchild⟩
  rw [h.root_toNat, huffmanRoot, hr] at hne
  exact hne (by simpa [hr] using hactive)

section inner

variable {j : Nat} (h1 : (presentEntries b.freq).length ≤ j) (h2 : j < b.nodeCount.toNat)

include h1 h2

/-- The children of node j are two different nodes made before it (R119, R127). -/
theorem Block.HoldsTree.children_lt : (b.nodeN j).left.toNat < j ∧ (b.nodeN j).right.toNat < j ∧
    (b.nodeN j).left ≠ (b.nodeN j).right := by
  obtain ⟨l, r, -, -, rfl, rfl, hl, hr, hne⟩ := h.selected h1 h2
  exact ⟨hl, hr, fun e => hne (congrArg BitVec.toNat e)⟩

theorem Block.HoldsTree.activeAt_of_isChild {i : Nat} (hi : b.isChild j i) :
    b.activeAt (presentEntries b.freq).length j i := by
  obtain ⟨hleft, hright, -⟩ := h.inner_selects_least_two h1 h2
  rcases hi with rfl | rfl
  · exact hleft
  · exact hright

/-- A child leaves the working collection, so no later node takes it (R121). -/
theorem Block.HoldsTree.not_lt_of_isChild {i k : Nat} (hk : (presentEntries b.freq).length ≤ k) (hki : b.isChild k i)
    (hji : b.isChild j i) : ¬ k < j := fun hkj => by
  obtain ⟨hleft, hright⟩ := (h.activeAt_of_isChild h1 h2 hji).2 k hk hkj
  exact hki.elim hleft hright

/-- What is active when node j + 1 is made weighs at least what either child of node j does, unless it is j (R118). -/
theorem Block.HoldsTree.weight_le_of_activeAt_succ {i : Nat} (hi : b.activeAt (presentEntries b.freq).length (j + 1) i)
    (hne : i ≠ j) : (b.nodeN (b.nodeN j).left.toNat).weight.toNat ≤ (b.nodeN i).weight.toNat ∧
      (b.nodeN (b.nodeN j).right.toNat).weight.toNat ≤ (b.nodeN i).weight.toNat := by
  obtain ⟨-, -, horder, hleast⟩ := h.inner_selects_least_two h1 h2
  obtain ⟨hact, hleft, hright⟩ := (Block.activeAt_succ h1 hi).resolve_left hne
  have hle := (hleast i hact hleft hright).weight_le
  exact ⟨horder.weight_le.trans hle, hle⟩

end inner

/-- Every index has one parent at most (R127). -/
theorem Block.HoldsTree.parent_unique {i j k : Nat} (hj : (presentEntries b.freq).length ≤ j)
    (hk : (presentEntries b.freq).length ≤ k) (hjN : j < b.nodeCount.toNat) (hkN : k < b.nodeCount.toNat)
    (hji : b.isChild j i) (hki : b.isChild k i) : j = k :=
  Nat.le_antisymm (not_lt.1 (h.not_lt_of_isChild hj hjN hk hki hji)) (not_lt.1 (h.not_lt_of_isChild hk hkN hj hji hki))

/-- R131: of the children of node j + 1 one at most is j, and the others weigh at least what the children of j do. -/
theorem Block.HoldsTree.weight_le_succ {j : Nat} (h1 : (presentEntries b.freq).length ≤ j)
    (h2 : j + 1 < b.nodeCount.toNat) : (b.nodeN j).weight ≤ (b.nodeN (j + 1)).weight := by
  obtain ⟨l, r, -, -, hl, hr, -⟩ := h.selected (Nat.le_succ_of_le h1) h2
  have hj : j < b.nodeCount.toNat := Nat.lt_of_succ_lt h2
  have hactl := h.activeAt_of_isChild (Nat.le_succ_of_le h1) h2 (.inl hl)
  have hactr := h.activeAt_of_isChild (Nat.le_succ_of_le h1) h2 (.inr hr)
  have hsum := h.inner_weight_toNat h1 hj
  have hsum' := h.inner_weight_toNat (Nat.le_succ_of_le h1) h2
  rw [hl, hr] at hsum'
  rw [BitVec.le_def, hsum']
  by_cases hlj : l = j
  · rw [hlj]; exact Nat.le_add_right ..
  by_cases hrj : r = j
  · rw [hrj]; exact Nat.le_add_left ..
  obtain ⟨hweightl, -⟩ := h.weight_le_of_activeAt_succ h1 hj hactl hlj
  obtain ⟨-, hweightr⟩ := h.weight_le_of_activeAt_succ h1 hj hactr hrj
  exact hsum ▸ Nat.add_le_add hweightl hweightr

end store

/-- Settles O45: every index but ROOT leaves the working collection, once, as the child of the node made then (R121,
R127). -/
theorem treeIsStrictBinary : Obligations.TreeIsStrictBinary := by
  intro b hinv hvalid
  have htree := hinv.holdsTree hvalid
  have hroot := htree.root_add_one
  rw [presentSymbols_length]
  refine ⟨fun j h1 h2 => htree.children_lt h1 h2, fun i hi hne => ?_, fun j h1 h2 => ?_⟩
  · obtain ⟨j, h1, h2, hchild⟩ := htree.exists_parent hi hne
    exact ⟨j, ⟨h1, h2, hchild⟩, fun k ⟨hk1, hk2, hk⟩ => htree.parent_unique hk1 h1 hk2 h2 hk hchild⟩
  · obtain ⟨hl, hr, -⟩ := htree.children_lt h1 h2
    exact ⟨fun e => by rw [e] at hl; omega, fun e => by rw [e] at hr; omega⟩

/-- Settles O48: each round takes the two least weights, so the next finds none lighter. -/
theorem mergeWeightsDoNotDecrease : Obligations.MergeWeightsDoNotDecrease := by
  intro b hinv hvalid j h1 h2
  rw [presentSymbols_length] at h1
  exact (hinv.holdsTree hvalid).weight_le_succ h1 h2

/-- Settles O47: the store holds the leaves first, in the order of the table's entries, then the internal nodes. -/
theorem leavesAndNodeCount : Obligations.LeavesAndNodeCount := by
  intro b hinv hvalid
  have htree := hinv.holdsTree hvalid
  refine ⟨htree.leaf_syms, fun k hk => htree.isLeaf_iff hk, htree.odd, ?_⟩
  have hodd := htree.odd
  have hroot := htree.root_add_one
  omega

end Sys2Proof.Machine
end

section
/-! BUILD_TREE and GEN_CODES as functions of FREQ, and READ_NODE past the tree (42_tree_builder.md R123, R124, R126,
R132; 43_code_generator.md R146, R153). -/

namespace Sys2Proof.Machine

theorem exec_buildTree_of_empty {s : State} (hp : presentEntries s.blk.freq = []) :
    exec .buildTree s = .next (s.withBlk (s.blk.finish .emptyInput)) := by
  have hrun : runOf .buildTree s.blk = .fail .emptyInput := if_pos hp
  rw [exec_eq, hrun]; rfl

theorem exec_genCodes_of_tree {s : State} (ht : s.blk.treeValid = true) :
    exec .genCodes s = .next (s.withBlk (s.blk.putCodes.finish .ok)) := by
  have hrun : runOf .genCodes s.blk = .ok s.blk.putCodes := if_neg (by simp [ht])
  rw [exec_eq, hrun]; rfl

/-- The inversion of BUILD_TREE (R122): it finds no present symbol, or it puts the tree of FREQ in the store. -/
theorem buildTree_cases {s t : State} (hexec : exec .buildTree s = .next t) :
    (presentEntries s.blk.freq = [] ∧ t.blk = s.blk.finish .emptyInput) ∨
    (presentEntries s.blk.freq ≠ [] ∧ t.blk = s.blk.putTree.finish .ok ∧ t.blk.HoldsTree) := by
  by_cases hp : presentEntries s.blk.freq = []
  · rw [exec_buildTree_of_empty hp] at hexec
    injection hexec with e
    exact .inl ⟨hp, by rw [← e]; rfl⟩
  · rw [exec_buildTree_of_present s hp] at hexec
    injection hexec with e
    exact .inr ⟨hp, by rw [← e]; rfl, e ▸ (s.blk.holdsTree_putTree hp).finish .ok⟩

/-- A BUILD_TREE that reports no error has put the tree of FREQ in the store (R122). -/
theorem buildTree_of_ok {s t : State} (hexec : exec .buildTree s = .next t) (hok : t.blk.err = 0#4) :
    t.blk = s.blk.putTree.finish .ok ∧ t.blk.HoldsTree := by
  rcases buildTree_cases hexec with ⟨-, hblk⟩ | ⟨-, htree⟩
  · rw [hblk] at hok
    exact absurd hok (show ErrCode.emptyInput.code ≠ 0#4 by decide)
  · exact htree

/-- A GEN_CODES with a tree leaves its code table (R32, R145). -/
theorem genCodes_of_holdsTree {s t : State} (hexec : exec .genCodes s = .next t) (hvalid : s.blk.treeValid = true)
    (htree : s.blk.HoldsTree) : t.blk = s.blk.putCodes.finish .ok ∧ t.blk.HoldsTree ∧ t.blk.HoldsCodes := by
  rw [exec_genCodes_of_tree hvalid] at hexec
  injection hexec with e
  subst e
  exact ⟨rfl, ⟨htree.present, htree.entries, htree.root, htree.nodeCount, htree.total, htree.odd⟩, rfl⟩

/-- Writing the tree of FREQ over itself changes nothing (R124). -/
theorem Block.HoldsTree.writeNodesFrom_eq {b : Block} (h : b.HoldsTree) :
    writeNodesFrom b.node 0 (huffmanNodes b.freq) = b.node := by
  refine Vector.ext fun k hk => ?_
  rw [← Option.some_inj, ← Vector.getElem?_eq_getElem, ← Vector.getElem?_eq_getElem]
  by_cases hlt : k < (huffmanNodes b.freq).length
  · rw [writeNodesFrom_below _ _ hlt hk, h.entries k hlt]
  · exact writeNodesFrom_above _ _ (not_lt.1 hlt)

theorem Block.HoldsTree.putTree_eq {b : Block} (h : b.HoldsTree) (ht : b.treeValid = true) :
    b.putTree = { b with codesValid := false, wlen := 0, maxLen := 0 } := by
  rw [Block.putTree, h.writeNodesFrom_eq, ← h.root, ← h.nodeCount, ← h.total, ← ht]

/-- The code of BUILD_TREE is a function of FREQ (R132). -/
theorem buildTree_err_congr {s s' t t' : State} (hfreq : s.blk.freq = s'.blk.freq)
    (hexec : exec .buildTree s = .next t) (hexec' : exec .buildTree s' = .next t') : t.blk.err = t'.blk.err := by
  rcases buildTree_cases hexec with ⟨hp, hblk⟩ | ⟨hp, hblk, -⟩
  · rw [hfreq] at hp
    obtain ⟨-, hblk'⟩ := (buildTree_cases hexec').resolve_right fun h => h.1 hp
    rw [hblk, hblk']; rfl
  · rw [hfreq] at hp
    obtain ⟨-, hblk', -⟩ := (buildTree_cases hexec').resolve_left fun h => hp h.1
    rw [hblk, hblk']; rfl

/-- Settles O49: both completions put the tree of the one FREQ in the store, or both find no present symbol. -/
theorem buildTreeDependsOnFreqOnly : Obligations.BuildTreeDependsOnFreqOnly := by
  intro s s' t t' hfreq hexec hexec'
  have herr := buildTree_err_congr hfreq hexec hexec'
  refine ⟨herr, fun hok => ?_⟩
  obtain ⟨hblk, htree⟩ := buildTree_of_ok hexec hok
  obtain ⟨hblk', htree'⟩ := buildTree_of_ok hexec' (herr ▸ hok)
  have hsame : t.blk.freq = t'.blk.freq := by rw [hblk, hblk']; exact hfreq
  refine ⟨htree.root_congr htree' hsame, ?_, ?_, fun i hi => ?_⟩
  · rw [htree.nodeCount, htree'.nodeCount, hsame]
  · rw [htree.total, htree'.total, hsame]
  · simpa [Block.nodeN] using htree.nodeN_congr htree' hsame (BitVec.lt_def.1 hi)

/-- Settles O50: every entry and register that BUILD_TREE writes holds its value already. -/
theorem rebuildKeepsTree : Obligations.RebuildKeepsTree := by
  intro s hinv hvalid
  have htree := hinv.holdsTree hvalid
  rw [exec_buildTree_of_present s htree.present, htree.putTree_eq hvalid]; rfl

/-- Settles O51: the one entry of the table is the tree's leaf at ROOT, whose code is "0" (`CodeFacts.one`). -/
theorem singleSymbolCode : Obligations.SingleSymbolCode := by
  intro s t u sym hone hexec hexec'
  rcases buildTree_cases hexec with ⟨hp, -⟩ | ⟨-, hblk, htree⟩
  · simp [presentSymbols, hp] at hone
  obtain ⟨hblk', htree', hcodes⟩ := genCodes_of_holdsTree hexec' (by rw [hblk]; rfl) htree
  have hfreq : u.blk.freq = s.blk.freq := by rw [hblk', hblk]; rfl
  rw [← hfreq] at hone ⊢
  have hmem : sym ∈ presentSymbols u.blk.freq := by simp [hone]
  have hlen : (presentEntries u.blk.freq).length = 1 := by rw [← presentSymbols_length, hone]; rfl
  have hcount := htree'.nodeCount_add_one
  have hroot := htree'.root_add_one
  rw [presentSymbols_length, hlen] at hcount
  obtain ⟨T, hT⟩ := htree'.codeFacts_of_codes hcodes
  obtain ⟨hcodeLen, hcodeVal⟩ := hT.one hlen sym hmem
  obtain ⟨-, s', hs', hmax⟩ := htree'.maxLen_spec hcodes
  obtain rfl : s' = sym := by simpa [hone] using hs'
  refine ⟨by rw [hblk']; rfl, BitVec.eq_of_toNat_eq (show _ = 0 by omega),
    BitVec.eq_of_toNat_eq (show _ = 1 by omega), ?_, hcodeLen, hcodeVal, ?_, ?_⟩
  · simp [htree'.total_toNat, totalFreq, hone]
  · simp [htree'.wlen_toNat hcodes, codeCost, hone, hcodeLen]
  · rw [← BitVec.toNat_inj, ← hmax, hcodeLen]; rfl

/-- Settles O56: both code tables are that of the one tree of FREQ (`Block.HoldsTree.codeTableOf_congr`). -/
theorem codesDependOnFreqOnly : Obligations.CodesDependOnFreqOnly := by
  intro s s' t t' u u' hfreq hexec hexec' hok hgen hgen'
  obtain ⟨hblk, htree⟩ := buildTree_of_ok hexec hok
  obtain ⟨hblk', htree'⟩ := buildTree_of_ok hexec' (buildTree_err_congr hfreq hexec hexec' ▸ hok)
  have hsame : t.blk.freq = t'.blk.freq := by rw [hblk, hblk']; exact hfreq
  obtain ⟨hu, -, -⟩ := genCodes_of_holdsTree hgen (by rw [hblk]; rfl) htree
  obtain ⟨hu', -, -⟩ := genCodes_of_holdsTree hgen' (by rw [hblk']; rfl) htree'
  have htable := htree.codeTableOf_congr htree' hsame
  have hleaves := htree.leavesOf_congr htree' hsame
  simp [hu, hu', htable, hleaves]

/-- Settles O25: both guards of READ_NODE answer INVALID_INPUT. -/
theorem readNodeOutsideTreeFails : Obligations.ReadNodeOutsideTreeFails := by
  rintro s (hnone | hpast)
  · exact exec_readNode_of_noTree hnone
  · have hguard : s.blk.nodeCount ≤ nodeOperand s.blk.curArg := hpast
    have hrun : runOf .readNode s.blk = .fail .invalidInput := by rw [runOf, runReadNode, if_pos hguard, ite_self]
    rw [exec_eq, hrun]; rfl

end Sys2Proof.Machine
end

section
/-! Huffman optimality (42_tree_builder.md R133): each merge round keeps a lower bound on the cost of every code. -/

namespace Sys2Proof.Machine

/-! ### Weights with code lengths -/

/-- The Kraft sum `Σ 2^(−l)` of code lengths (R151). -/
noncomputable def kraftSum (lens : Multiset ℕ) : ℝ := (lens.map fun l => (1 / 2 : ℝ) ^ l).sum

/-- `Σ w · l` over weights, each with the length of its code. -/
def lengthCost (M : Multiset (ℕ × ℕ)) : ℕ := (M.map fun e => e.1 * e.2).sum

@[simp] theorem kraftSum_cons (l : ℕ) (lens : Multiset ℕ) :
    kraftSum (l ::ₘ lens) = (1 / 2 : ℝ) ^ l + kraftSum lens := by
  simp [kraftSum]

@[simp] theorem lengthCost_cons (e : ℕ × ℕ) (M : Multiset (ℕ × ℕ)) :
    lengthCost (e ::ₘ M) = e.1 * e.2 + lengthCost M := by
  simp [lengthCost]

/-- A least weight can trade its length for the greatest, and the cost does not grow. -/
theorem exists_longest_for_least {M : Multiset (ℕ × ℕ)} {w : ℕ} {W : Multiset ℕ} (hM : M.map Prod.fst = w ::ₘ W)
    (hw : ∀ v ∈ W, w ≤ v) : ∃ L M', M'.map Prod.fst = W ∧ L ::ₘ M'.map Prod.snd = M.map Prod.snd ∧
      (∀ l ∈ M'.map Prod.snd, l ≤ L) ∧ w * L + lengthCost M' ≤ lengthCost M := by
  obtain ⟨e, he, rfl, -⟩ := (Multiset.map_eq_cons ..).2 hM
  obtain ⟨N, rfl⟩ := Multiset.exists_cons_of_mem he
  obtain rfl : N.map Prod.fst = W := by simpa using hM
  obtain ⟨p, hp, hmax⟩ := Multiset.exists_max_image Prod.snd (Multiset.cons_ne_zero (a := e) (m := N))
  rcases Multiset.mem_cons.1 hp with rfl | hp
  · exact ⟨p.2, N, rfl, by simp, by simpa using fun l v hv => hmax (v, l) (Multiset.mem_cons_of_mem hv), by simp⟩
  · obtain ⟨R, rfl⟩ := Multiset.exists_cons_of_mem hp
    have hlen : e.2 ≤ p.2 := hmax e (Multiset.mem_cons_self ..)
    have hweight : e.1 ≤ p.1 := hw _ (Multiset.mem_map_of_mem _ hp)
    refine ⟨p.2, (p.1, e.2) ::ₘ R, by simp, ?_, ?_, ?_⟩
    · simp [Multiset.cons_swap]
    · simpa [hlen] using fun l v hv => hmax (v, l) (by simp [hv])
    · have := mul_add_mul_le_mul_add_mul hweight hlen
      simp only [lengthCost_cons]
      omega

/-- The Kraft sum of lengths of at most k is a number of units of `2^(−k)`. -/
theorem kraftSum_mul_pow {lens : Multiset ℕ} {k : ℕ} (hk : ∀ l ∈ lens, l ≤ k) :
    kraftSum lens * 2 ^ k = ((lens.map fun l => 2 ^ (k - l)).sum : ℕ) := by
  induction lens using Multiset.induction with
  | empty => simp [kraftSum]
  | cons l lens ih =>
    have hl : (1 / 2 : ℝ) ^ l * 2 ^ k = 2 ^ (k - l) := by
      rw [← Nat.add_sub_cancel' (hk l (Multiset.mem_cons_self ..)), pow_add, ← mul_assoc, ← mul_pow]
      simp
    rw [kraftSum_cons, add_mul, hl, ih fun l' hl' => hk l' (Multiset.mem_cons_of_mem hl')]
    simp

/-- The two longest code words leave room for one that is a bit shorter than the second: in units of `2^(−k)` the sum of
the others is a whole number, so it falls short of `2^k` by two units at least. -/
theorem kraftSum_join {lens : Multiset ℕ} {L k : ℕ} (hk : ∀ l ∈ lens, l ≤ k)
    (h : kraftSum (L ::ₘ k ::ₘ lens) ≤ 1) : 1 ≤ k ∧ kraftSum ((k - 1) ::ₘ lens) ≤ 1 := by
  have hunits := kraftSum_mul_pow hk
  generalize ((lens.map fun l => 2 ^ (k - l)).sum : ℕ) = units at hunits
  have hpos : (0 : ℝ) < 2 ^ k := by positivity
  have hroom : units + 2 ≤ 2 ^ k := by
    have hunit : (1 / 2 : ℝ) ^ k * 2 ^ k = 1 := by rw [← mul_pow]; norm_num
    have hlongest : 0 < (1 / 2 : ℝ) ^ L * 2 ^ k := by positivity
    have hscaled := mul_le_mul_of_nonneg_right h hpos.le
    rw [kraftSum_cons, kraftSum_cons, add_mul, add_mul, hunit, hunits, one_mul] at hscaled
    have hlt : (units : ℝ) + 1 < 2 ^ k := by linarith
    exact_mod_cast hlt
  cases k with
  | zero => simp at hroom
  | succ k =>
    have hunit : (1 / 2 : ℝ) ^ k * 2 ^ (k + 1) = 2 := by rw [pow_succ, ← mul_assoc, ← mul_pow]; norm_num
    refine ⟨Nat.succ_pos k, le_of_mul_le_mul_right ?_ hpos⟩
    rw [Nat.add_sub_cancel, kraftSum_cons, add_mul, hunit, hunits, one_mul, add_comm]
    exact_mod_cast hroom

/-- R133's exchange: whatever the code lengths, the two least weights can be joined under one word a bit shorter. -/
theorem exists_joined_lengths {M : Multiset (ℕ × ℕ)} {v w : ℕ} {W : Multiset ℕ}
    (hM : M.map Prod.fst = v ::ₘ w ::ₘ W) (hvw : v ≤ w) (hW : ∀ u ∈ W, w ≤ u)
    (hkraft : kraftSum (M.map Prod.snd) ≤ 1) :
    ∃ M', M'.map Prod.fst = (v + w) ::ₘ W ∧ kraftSum (M'.map Prod.snd) ≤ 1 ∧
      v + w + lengthCost M' ≤ lengthCost M := by
  have hleast : ∀ u ∈ w ::ₘ W, v ≤ u := by simpa [hvw] using fun u hu => hvw.trans (hW u hu)
  obtain ⟨L, M₁, hfst₁, hsnd₁, hmax₁, hcost₁⟩ := exists_longest_for_least hM hleast
  obtain ⟨k, M₂, hfst₂, hsnd₂, hmax₂, hcost₂⟩ := exists_longest_for_least hfst₁ hW
  have hkL : k ≤ L := hmax₁ k (hsnd₂ ▸ Multiset.mem_cons_self ..)
  rw [← hsnd₁, ← hsnd₂] at hkraft
  obtain ⟨hk, hjoin⟩ := kraftSum_join hmax₂ hkraft
  refine ⟨(v + w, k - 1) ::ₘ M₂, by simp [hfst₂], by simpa using hjoin, ?_⟩
  obtain ⟨k, rfl⟩ := Nat.exists_eq_add_of_le' hk
  have hvL := Nat.mul_le_mul_left v hkL
  have hjoined : v + w + (v + w) * k = v * (k + 1) + w * (k + 1) := by ring
  simp only [lengthCost_cons, Nat.add_sub_cancel]
  omega

/-! ### The merge rounds -/

/-- The weights of the working collection (R121). -/
def Forest.weights (f : Forest) : Multiset ℕ := f.active.map fun i => (weightAt f.nodes i).toNat

/-- The sum of the weights of the internal nodes made so far, of n leaves (R152). -/
def Forest.innerWeight (n : ℕ) (f : Forest) : ℕ :=
  ((List.range' n (f.nodes.length - n)).map fun j => (weightAt f.nodes j).toNat).sum

theorem weightAt_append_self (nodes : List NodeRec) (r : NodeRec) :
    weightAt (nodes ++ [r]) nodes.length = r.weight := by
  rw [weightAt_eq, nodeOf_append_self]

/-- A round takes the two least weights from the working collection and adds a node of their sum. -/
theorem mergeRound_joins {es : List (Symbol × Word)} {f : Forest} (hes : es.length ≤ 256) (hg : f.Good es)
    (hl : 2 ≤ f.active.length) : ∃ a b rest r, f.active.Perm (a :: b :: rest) ∧
      mergeRound f = { nodes := f.nodes ++ [r], active := rest ++ [f.nodes.length] } ∧
      (weightAt f.nodes a).toNat ≤ (weightAt f.nodes b).toNat ∧
      (∀ i ∈ rest, (weightAt f.nodes b).toNat ≤ (weightAt f.nodes i).toNat) ∧
      r.weight.toNat = (weightAt f.nodes a).toNat + (weightAt f.nodes b).toNat := by
  obtain ⟨a, b, ha, hb, hab, hleast, heq⟩ := mergeRound_spec hg.nodup hl
  have hperm : f.active.Perm (a :: b :: (f.active.erase a).erase b) :=
    (List.perm_cons_erase ha).trans ((List.perm_cons_erase hb).cons a)
  have hrest : ∀ i ∈ (f.active.erase a).erase b, i ∈ f.active ∧ i ≠ a ∧ i ≠ b := fun i hi => by
    rw [(hg.nodup.erase a).mem_erase_iff, hg.nodup.mem_erase_iff] at hi; tauto
  refine ⟨a, b, _, _, hperm, heq, ?_, fun i hi => ?_, ?_⟩
  · have := precedes_iff.1 hab; omega
  · obtain ⟨hi, hia, hib⟩ := hrest i hi
    have := precedes_iff.1 (hleast i hi hia hib); omega
  · have hkeep : ((f.active.erase a).erase b).map
        (fun i => (weightAt (f.nodes ++ [innerRec f.nodes a b]) i).toNat) =
        ((f.active.erase a).erase b).map fun i => (weightAt f.nodes i).toNat :=
      List.map_congr_left fun i hi => by rw [weightAt_append_lt ((hg.active i).1 (hrest i hi).1).1]
    have hconserved := (mergeRound_good hes hg hl).1.weight.trans hg.weight.symm
    rw [heq, (hperm.map fun i => (weightAt f.nodes i).toNat).sum_eq, List.map_append, List.sum_append,
      hkeep] at hconserved
    simp only [List.map_cons, List.map_nil, List.sum_cons, List.sum_nil, weightAt_append_self] at hconserved
    omega

/-- In weights: the two least become their sum, which counts as internal from now on. -/
theorem mergeRound_weights {es : List (Symbol × Word)} {f : Forest} (hes : es.length ≤ 256) (hg : f.Good es)
    (hl : 2 ≤ f.active.length) : ∃ v w W, f.weights = v ::ₘ w ::ₘ W ∧ v ≤ w ∧ (∀ u ∈ W, w ≤ u) ∧
      (mergeRound f).weights = (v + w) ::ₘ W ∧
      (mergeRound f).innerWeight es.length = f.innerWeight es.length + (v + w) := by
  obtain ⟨a, b, rest, r, hperm, heq, hab, hleast, hr⟩ := mergeRound_joins hes hg hl
  have hold : ∀ i ∈ f.active, weightAt (f.nodes ++ [r]) i = weightAt f.nodes i := fun i hi =>
    weightAt_append_lt ((hg.active i).1 hi).1
  refine ⟨_, _, rest.map fun i => (weightAt f.nodes i).toNat, Multiset.coe_eq_coe.2 (hperm.map _), hab,
    by simpa using hleast, ?_, ?_⟩
  · have hkeep : rest.map (fun i => (weightAt (f.nodes ++ [r]) i).toNat) =
        rest.map fun i => (weightAt f.nodes i).toNat :=
      List.map_congr_left fun i hi => by rw [hold i (hperm.mem_iff.2 (by simp [hi]))]
    rw [heq, Forest.weights, List.map_append, hkeep, List.map_singleton, weightAt_append_self, hr, ← Multiset.coe_add]
    exact Multiset.add_comm ..
  · have hlonger := hg.longer
    have hcount : (f.nodes ++ [r]).length - es.length = (f.nodes.length - es.length) + 1 := by simp; omega
    have hkeep : (List.range' es.length (f.nodes.length - es.length)).map
        (fun j => (weightAt (f.nodes ++ [r]) j).toNat) =
        (List.range' es.length (f.nodes.length - es.length)).map fun j => (weightAt f.nodes j).toNat :=
      List.map_congr_left fun j hj => by rw [List.mem_range'_1] at hj; rw [weightAt_append_lt (by omega)]
    rw [heq, Forest.innerWeight, hcount, List.range'_1_concat, List.map_append, List.sum_append, hkeep,
      Nat.add_sub_cancel' hlonger, List.map_singleton, List.sum_singleton, weightAt_append_self, hr,
      Forest.innerWeight]

/-- No code for the weights of a collection costs less than the nodes the rounds make of it. -/
theorem mergeRounds_innerWeight_le {es : List (Symbol × Word)} (hes : es.length ≤ 256) (k : ℕ) {f : Forest}
    (hg : f.Good es) (hl : f.active.length = k + 1) {M : Multiset (ℕ × ℕ)} (hM : M.map Prod.fst = f.weights)
    (hkraft : kraftSum (M.map Prod.snd) ≤ 1) :
    (mergeRounds k f).innerWeight es.length ≤ f.innerWeight es.length + lengthCost M := by
  induction k generalizing f M with
  | zero => exact Nat.le_add_right ..
  | succ k ih =>
    obtain ⟨v, w, W, hweights, hvw, hW, hweights', hinner⟩ := mergeRound_weights hes hg (by omega)
    obtain ⟨hg', hl'⟩ := mergeRound_good hes hg (by omega)
    obtain ⟨M', hM', hkraft', hcost⟩ := exists_joined_lengths (hM.trans hweights) hvw hW hkraft
    have := ih hg' (by omega) (hM'.trans hweights'.symm) hkraft'
    rw [mergeRounds]
    omega

theorem leafForest_weights (freq : Vector Word 256) :
    (leafForest freq).weights = (presentSymbols freq : Multiset Symbol).map fun s => (freqAt freq s).toNat := by
  rw [Forest.weights, Multiset.map_coe]
  congr 1
  apply List.ext_getElem
  · simp [leafForest]
  · intro k h1 h2
    have hk : k < (presentSymbols freq).length := by simpa using h2
    have hentry : (presentEntries freq)[k]? =
        some ((presentSymbols freq)[k], freqAt freq (presentSymbols freq)[k]) := by
      rw [presentEntries_getElem?, List.getElem?_eq_getElem hk, Option.map_some]
    simp [leafForest, weightAt, hentry]

theorem leafForest_innerWeight (freq : Vector Word 256) :
    (leafForest freq).innerWeight (presentEntries freq).length = 0 := by
  simp [leafForest, Forest.innerWeight]

/-! ### Codes no word of which begins another (R13) -/

/-- A set of nonempty words none of which begins another is uniquely decodable. -/
theorem uniquelyDecodable_of_prefixFree {S : Set (List Bool)} (hne : [] ∉ S)
    (hfree : ∀ p ∈ S, ∀ q ∈ S, p <+: q → p = q) : InformationTheory.UniquelyDecodable S := by
  intro ps
  induction ps with
  | nil =>
    intro qs _ hqs heq
    cases qs with
    | nil => rfl
    | cons q qs =>
      obtain ⟨rfl, -⟩ : q = [] ∧ _ := by simpa using heq
      exact absurd (hqs [] (by simp)) hne
  | cons p ps ih =>
    intro qs hps hqs heq
    obtain ⟨hp, hps'⟩ := List.forall_mem_cons.1 hps
    cases qs with
    | nil =>
      obtain ⟨rfl, -⟩ : p = [] ∧ _ := by simpa using heq
      exact absurd hp hne
    | cons q qs =>
      obtain ⟨hq, hqs'⟩ := List.forall_mem_cons.1 hqs
      simp only [List.flatten_cons] at heq
      obtain rfl : p = q := by
        rcases List.prefix_or_prefix_of_prefix (List.prefix_append p ps.flatten)
          (heq ▸ List.prefix_append q qs.flatten) with h | h
        · exact hfree p hp q hq h
        · exact (hfree q hq p hp h).symm
      rw [ih qs hps' hqs' (List.append_cancel_left heq)]

/-- The frequencies of the present symbols, each with the length of its code word. -/
def codeLengths (freq : Vector Word 256) (code : Symbol → List Bool) : Multiset (ℕ × ℕ) :=
  (presentSymbols freq : Multiset Symbol).map fun s => ((freqAt freq s).toNat, (code s).length)

theorem codeLengths_fst (freq : Vector Word 256) (code : Symbol → List Bool) :
    (codeLengths freq code).map Prod.fst = (leafForest freq).weights := by
  rw [leafForest_weights, codeLengths, Multiset.map_map]; rfl

theorem codeLengths_snd (freq : Vector Word 256) (code : Symbol → List Bool) :
    (codeLengths freq code).map Prod.snd = (presentSymbols freq : Multiset Symbol).map fun s => (code s).length := by
  rw [codeLengths, Multiset.map_map]; rfl

theorem lengthCost_codeLengths (freq : Vector Word 256) (code : Symbol → List Bool) :
    lengthCost (codeLengths freq code) = codeCost freq code := by
  rw [lengthCost, codeLengths, Multiset.map_map]; rfl

section code

variable {freq : Vector Word 256} {code : Symbol → List Bool} (hcode : prefixFree freq code)

include hcode

theorem prefixFree.eq_of_prefix {s t : Symbol} (hs : s ∈ presentSymbols freq) (ht : t ∈ presentSymbols freq)
    (hprefix : code s <+: code t) : s = t :=
  by_contra fun hne => hcode s hs t ht hne hprefix

/-- The empty word begins every other, so it is no code word beside another. -/
theorem prefixFree.nil_notMem (h2 : 2 ≤ (presentSymbols freq).length) : [] ∉ (presentSymbols freq).map code := by
  intro hmem
  obtain ⟨s, hs, hnil⟩ := List.mem_map.1 hmem
  have hall : presentSymbols freq ⊆ [s] := fun t ht =>
    List.mem_singleton.2 (hcode.eq_of_prefix hs ht (hnil ▸ List.nil_prefix)).symm
  have hle : (presentSymbols freq).length ≤ 1 := (presentSymbols_nodup freq).length_le_of_subset hall
  omega

/-- Kraft's inequality for the code words of two or more symbols (R151). -/
theorem prefixFree.kraftSum_le (h2 : 2 ≤ (presentSymbols freq).length) :
    kraftSum ((presentSymbols freq : Multiset Symbol).map fun s => (code s).length) ≤ 1 := by
  have hnodup : ((presentSymbols freq).map code).Nodup :=
    (presentSymbols_nodup freq).map_on fun s hs t ht heq => hcode.eq_of_prefix hs ht (heq ▸ List.prefix_rfl)
  have hfree : ∀ p ∈ (presentSymbols freq).map code, ∀ q ∈ (presentSymbols freq).map code, p <+: q → p = q := by
    simp only [List.mem_map]
    rintro _ ⟨s, hs, rfl⟩ _ ⟨t, ht, rfl⟩ hprefix
    rw [hcode.eq_of_prefix hs ht hprefix]
  have hdecodable := uniquelyDecodable_of_prefixFree (S := ((presentSymbols freq).map code).toFinset)
    (by simpa using hcode.nil_notMem h2) (by simpa using hfree)
  have hkraft := InformationTheory.kraft_mcmillan_inequality hdecodable
  rw [List.sum_toFinset _ hnodup] at hkraft
  simpa [kraftSum, Function.comp_def] using hkraft

/-- R133: no code that meets R149 costs less than the internal nodes of the Huffman tree weigh. -/
theorem huffmanForest_innerWeight_le (h2 : 2 ≤ (presentSymbols freq).length) :
    (huffmanForest freq).innerWeight (presentEntries freq).length ≤ codeCost freq code := by
  have hkraft : kraftSum ((codeLengths freq code).map Prod.snd) ≤ 1 := by
    rw [codeLengths_snd]; exact hcode.kraftSum_le h2
  rw [presentSymbols_length] at h2
  have hbound := mergeRounds_innerWeight_le (presentEntries_length_le freq) ((presentEntries freq).length - 1)
    (leafForest_good freq) (by simp [leafForest]; omega) (codeLengths_fst freq code) hkraft
  rwa [lengthCost_codeLengths, leafForest_innerWeight, Nat.zero_add] at hbound

end code

/-! ### The block's own code -/

/-- Summed over the paths, the symbols' weights are the tree's weight (R116). -/
theorem HTree.weight_eq_sum_paths {F : Symbol → ℕ} {T : HTree} (hF : ∀ e ∈ T.leaves, e.2 = F e.1) :
    (T.paths.map fun e => F e.1).sum = T.weight := by
  have hsymbols : (T.paths.map Prod.fst).map F = (T.leaves.map Prod.fst).map F := by rw [T.paths_symbols]
  rw [List.map_map, List.map_map] at hsymbols
  rw [T.weight_eq_sum, List.map_congr_left hF]
  exact congrArg List.sum hsymbols

/-- The internal nodes weigh what the leaves' weights times their depths do (R152). -/
theorem HTree.inner_eq_sum_paths {F : Symbol → ℕ} {T : HTree} (hF : ∀ e ∈ T.leaves, e.2 = F e.1) :
    T.inner = (T.paths.map fun e => F e.1 * e.2.length).sum := by
  induction T with
  | leaf => simp [HTree.inner, HTree.paths]
  | node l r ihl ihr =>
    obtain ⟨hl, hr⟩ := List.forall_mem_append.1 hF
    have hdeeper : ∀ T : HTree, (T.paths.map fun e => F e.1 * (e.2.length + 1)).sum =
        (T.paths.map fun e => F e.1 * e.2.length).sum + (T.paths.map fun e => F e.1).sum := fun T => by
      simp only [Nat.mul_succ, List.sum_map_add]
    have hpaths := congrArg₂ (· + ·) (hdeeper l) (hdeeper r)
    rw [weight_eq_sum_paths hl, weight_eq_sum_paths hr, ← ihl hl, ← ihr hr] at hpaths
    simp only [HTree.inner, HTree.paths, List.map_append, List.map_map, List.sum_append, Function.comp_def,
      List.length_cons, hpaths]
    omega

section block

variable {b : Block}

/-- In a tree of more than one leaf the stored code of a symbol is the path to its leaf (R141, R144). -/
theorem CodeFacts.codeOf_eq {T : HTree} (hT : CodeFacts b T b.codeLen b.codeVal)
    (h2 : 2 ≤ (presentEntries b.freq).length) {s : Symbol} {p : List Bool} (hp : (s, p) ∈ T.paths) :
    b.codeOf s = p := by
  obtain ⟨hlen, hval⟩ := hT.many h2 s p hp
  have hleaves : T.leaves.length = (presentEntries b.freq).length := by simpa using hT.leaves.length_eq
  have hshort : p.length < 256 :=
    (T.path_length_lt _ hp).trans_le (hleaves ▸ presentEntries_length_le b.freq)
  rw [Block.codeOf, hlen, hval]
  exact codeBits_of_path p hshort

theorem CodeFacts.exists_path {T : HTree} {len : Vector (BitVec 8) 256} {val : Vector (BitVec 256) 256}
    (hT : CodeFacts b T len val) {s : Symbol} (hs : s ∈ presentSymbols b.freq) : ∃ p, (s, p) ∈ T.paths := by
  rw [← (leaf_symbols hT.leaves).mem_iff, ← T.paths_symbols] at hs
  simpa using hs

/-- A leaf of the block's tree weighs its symbol's frequency (R120). -/
theorem CodeFacts.leaf_weight {T : HTree} {len : Vector (BitVec 8) 256} {val : Vector (BitVec 256) 256}
    (hT : CodeFacts b T len val) : ∀ e ∈ T.leaves, e.2 = (freqAt b.freq e.1).toNat := by
  intro e he
  rw [hT.leaves.mem_iff, presentEntries_eq_map, List.map_map] at he
  obtain ⟨s, -, rfl⟩ := List.mem_map.1 he
  rfl

/-- The cost of the block's code is the weight of its tree's internal nodes (R152). -/
theorem CodeFacts.codeCost_eq_inner {T : HTree} (hT : CodeFacts b T b.codeLen b.codeVal)
    (h2 : 2 ≤ (presentEntries b.freq).length) : codeCost b.freq b.codeOf = T.inner := by
  have hperm : (T.paths.map Prod.fst).Perm (presentSymbols b.freq) := T.paths_symbols ▸ leaf_symbols hT.leaves
  rw [codeCost, ← (hperm.map _).sum_eq, List.map_map,
    HTree.inner_eq_sum_paths (F := fun s => (freqAt b.freq s).toNat) hT.leaf_weight]
  congr 1
  refine List.map_congr_left fun e he => ?_
  rw [Function.comp, hT.codeOf_eq h2 he]

theorem Block.HoldsTree.innerWeight_eq (h : b.HoldsTree) :
    (huffmanForest b.freq).innerWeight (presentEntries b.freq).length =
      ((List.range' (presentEntries b.freq).length ((presentEntries b.freq).length - 1)).map fun j =>
        (b.nodeN j).weight.toNat).sum := by
  have hlen := huffmanNodes_length b.freq h.present
  have hcount := h.nodeCount_toNat
  rw [Forest.innerWeight, ← huffmanNodes,
    show (huffmanNodes b.freq).length - (presentEntries b.freq).length = (presentEntries b.freq).length - 1 by omega]
  congr 1
  refine List.map_congr_left fun j hj => ?_
  rw [List.mem_range'_1] at hj
  rw [h.nodeN_weight (by omega)]

variable (h : b.HoldsTree) (hc : b.HoldsCodes) (h2 : 2 ≤ (presentEntries b.freq).length)

include h hc h2

/-- No code word begins another (R149), with two or more present symbols. -/
theorem Block.HoldsTree.codeOf_prefixFree : prefixFree b.freq b.codeOf := by
  obtain ⟨T, hT⟩ := h.codeFacts_of_codes hc
  intro s hs t ht hne hprefix
  obtain ⟨p, hp⟩ := hT.exists_path hs
  obtain ⟨q, hq⟩ := hT.exists_path ht
  rw [hT.codeOf_eq h2 hp, hT.codeOf_eq h2 hq] at hprefix
  obtain rfl : p = q := T.paths_prefix_free _ hp _ hq hprefix
  exact hne (congrArg Prod.fst (List.inj_on_of_nodup_map T.paths_nodup hp hq rfl))

/-- WLEN is the weight of the internal nodes (R152). -/
theorem Block.HoldsTree.wlen_eq_innerWeight :
    b.wlen.toNat = (huffmanForest b.freq).innerWeight (presentEntries b.freq).length := by
  obtain ⟨T, hT⟩ := h.codeFacts_of_codes hc
  rw [h.wlen_toNat hc, hT.codeCost_eq_inner h2, hT.inner, h.innerWeight_eq]

end block

/-- Settles O57: WLEN is the weight of the nodes the merge rounds make, and by R133's exchange no code lengths that meet
Kraft's inequality cost less (`mergeRounds_innerWeight_le`). -/
theorem codesAreOptimal : Obligations.CodesAreOptimal := by
  intro b hinv hvalid
  have htree := hinv.holdsTree (hinv.codesTree hvalid)
  have hcodes := hinv.holdsCodes hvalid
  refine ⟨fun h2 => ?_, fun h1 sym hsym => ?_⟩
  · have h2' := h2
    rw [presentSymbols_length] at h2'
    refine ⟨fun sym hsym => htree.codeOf_leadsToLeaf hcodes h2' ((mem_presentSymbols _ _).2 hsym),
      htree.codeOf_prefixFree hcodes h2', (htree.wlen_toNat hcodes).symm, fun code hcode => ?_⟩
    rw [htree.wlen_eq_innerWeight hcodes h2']
    exact huffmanForest_innerWeight_le hcode h2
  · rw [presentSymbols_length] at h1
    rw [htree.codeOf_single hcodes h1 ((mem_presentSymbols _ _).2 hsym)]
    rfl

end Sys2Proof.Machine
end

section
/-! The code table: prefix-free, its bounds, Kraft's equality and WLEN (43_code_generator.md R149 to R152), and the
completions of GEN_CODES and READ_CODE (R140, R145, R147). -/

namespace Sys2Proof.Machine

/-! ### The leaves' paths -/

/-- No path of a strict binary tree is left unused (R151), in units of `2^(−k)` for a k that no path exceeds. -/
theorem HTree.sum_pow_paths (T : HTree) {k : ℕ} (hk : T.leaves.length ≤ k + 1) :
    (T.paths.map fun e => 2 ^ (k - e.2.length)).sum = 2 ^ k := by
  induction T generalizing k with
  | leaf => simp [HTree.paths]
  | node l r ihl ihr =>
    have hl := l.leaves_pos
    have hr := r.leaves_pos
    simp only [HTree.leaves, List.length_append] at hk
    obtain ⟨k, rfl⟩ := Nat.exists_eq_add_of_le' (show 1 ≤ k by omega)
    have hdeeper : ∀ p : List Bool, k + 1 - (p.length + 1) = k - p.length := fun p => by omega
    simp only [HTree.paths, List.map_append, List.map_map, List.sum_append, Function.comp_def, List.length_cons,
      hdeeper]
    rw [ihl (by omega), ihr (by omega), pow_succ, mul_two]

section block

variable {b : Block}

theorem CodeFacts.leaves_length {T : HTree} {len : Vector (BitVec 8) 256} {val : Vector (BitVec 256) 256}
    (hT : CodeFacts b T len val) : T.leaves.length = (presentEntries b.freq).length := by
  simpa using hT.leaves.length_eq

theorem CodeFacts.codeLen_eq {T : HTree} (hT : CodeFacts b T b.codeLen b.codeVal)
    (h2 : 2 ≤ (presentEntries b.freq).length) {s : Symbol} {p : List Bool} (hp : (s, p) ∈ T.paths) :
    (codeLenAt b.codeLen s).toNat = p.length := by
  rw [← b.codeOf_length, hT.codeOf_eq h2 hp]

variable (h : b.HoldsTree)

include h

/-- A block with a tree has one present symbol, or two and more. -/
theorem Block.HoldsTree.one_or_many :
    (presentEntries b.freq).length = 1 ∨ 2 ≤ (presentEntries b.freq).length := by
  have hpos := List.length_pos_iff.2 h.present
  omega

variable (hc : b.HoldsCodes)

include hc

/-- No code word begins another (R149); one code word has no other beside it. -/
theorem Block.HoldsTree.codeOf_prefixFree_of_codes : prefixFree b.freq b.codeOf := by
  rcases h.one_or_many with h1 | h2
  · intro s hs t ht hne
    rw [← presentSymbols_length] at h1
    obtain ⟨u, hu⟩ := List.length_eq_one_iff.1 h1
    rw [hu, List.mem_singleton] at hs ht
    exact absurd (hs.trans ht.symm) hne
  · exact h.codeOf_prefixFree hc h2

/-- "Every present symbol has `CODE_LEN[s] ≥ 1`" (R150). -/
theorem Block.HoldsTree.codeLen_pos {s : Symbol} (hs : s ∈ presentSymbols b.freq) :
    1 ≤ (codeLenAt b.codeLen s).toNat := by
  rw [← b.codeOf_length, Nat.one_le_iff_ne_zero, ne_eq, List.length_eq_zero_iff]
  rcases h.one_or_many with h1 | h2
  · simp [h.codeOf_single hc h1 hs]
  · intro hnil
    exact (h.codeOf_prefixFree hc h2).nil_notMem (by simpa using h2) (List.mem_map.2 ⟨s, hs, hnil⟩)

/-- An absent symbol has length 0 and value 0 (R145). -/
theorem Block.HoldsTree.code_of_absent {s : Symbol} (hs : s ∉ presentSymbols b.freq) :
    codeLenAt b.codeLen s = 0#8 ∧ codeValAt b.codeVal s = 0#256 := by
  obtain ⟨T, hT⟩ := h.codeFacts_of_codes hc
  exact hT.absent s hs

/-- "A strict binary tree with n leaves has depth at most n − 1" (R150). -/
theorem Block.HoldsTree.codeLen_lt (h2 : 2 ≤ (presentEntries b.freq).length) (s : Symbol) :
    (codeLenAt b.codeLen s).toNat < (presentEntries b.freq).length := by
  by_cases hs : s ∈ presentSymbols b.freq
  · obtain ⟨T, hT⟩ := h.codeFacts_of_codes hc
    obtain ⟨p, hp⟩ := hT.exists_path hs
    rw [hT.codeLen_eq h2 hp, ← hT.leaves_length]
    exact T.path_length_lt _ hp
  · rw [(h.code_of_absent hc hs).1, BitVec.toNat_zero]
    omega

/-- "`CODE_VAL[s] < 2^CODE_LEN[s]`" (R150), present or absent. -/
theorem Block.HoldsTree.codeVal_lt (s : Symbol) :
    (codeValAt b.codeVal s).toNat < 2 ^ (codeLenAt b.codeLen s).toNat := by
  obtain ⟨T, hT⟩ := h.codeFacts_of_codes hc
  have hzero : codeValAt b.codeVal s = 0#256 →
      (codeValAt b.codeVal s).toNat < 2 ^ (codeLenAt b.codeLen s).toNat := fun hval => by
    rw [hval, BitVec.toNat_zero]
    positivity
  by_cases hs : s ∈ presentSymbols b.freq
  · rcases h.one_or_many with h1 | h2
    · exact hzero (hT.one h1 s hs).2
    · obtain ⟨p, hp⟩ := hT.exists_path hs
      rw [hT.codeLen_eq h2 hp, (hT.many h2 s p hp).2, BitVec.toNat_ofNat]
      exact (Nat.mod_le ..).trans_lt (pathValue_lt p)
  · exact hzero (hT.absent s hs).2

/-- Bit 255 of a value is zero, as no length is above 255 (R150). -/
theorem Block.HoldsTree.codeVal_bit255 (s : Symbol) : (codeValAt b.codeVal s).getLsbD 255 = false := by
  have hlen : (codeLenAt b.codeLen s).toNat ≤ 255 := Nat.le_of_lt_succ (codeLenAt b.codeLen s).isLt
  exact Nat.testBit_lt_two_pow ((h.codeVal_lt hc s).trans_le (Nat.pow_le_pow_right two_pos hlen))

/-- Kraft's sum of two or more codes is 1 (R151), scaled by `2^255`: the codes are all the paths of the tree. -/
theorem Block.HoldsTree.kraft_of_many (h2 : 2 ≤ (presentEntries b.freq).length) :
    ((presentSymbols b.freq).map fun s => 2 ^ (255 - (codeLenAt b.codeLen s).toNat)).sum = 2 ^ 255 := by
  obtain ⟨T, hT⟩ := h.codeFacts_of_codes hc
  have hperm : (T.paths.map Prod.fst).Perm (presentSymbols b.freq) := T.paths_symbols ▸ leaf_symbols hT.leaves
  have hlengths : T.paths.map (fun e => 2 ^ (255 - (codeLenAt b.codeLen e.1).toNat)) =
      T.paths.map fun e => 2 ^ (255 - e.2.length) :=
    List.map_congr_left fun e he => by rw [hT.codeLen_eq h2 he]
  rw [← (hperm.map _).sum_eq, List.map_map, Function.comp_def, hlengths]
  exact T.sum_pow_paths (hT.leaves_length ▸ presentEntries_length_le b.freq)

/-- Kraft's sum of one code, of length 1, is 1/2 (R151), scaled by `2^255`. -/
theorem Block.HoldsTree.kraft_of_one (h1 : (presentEntries b.freq).length = 1) :
    ((presentSymbols b.freq).map fun s => 2 ^ (255 - (codeLenAt b.codeLen s).toNat)).sum = 2 ^ 254 := by
  obtain ⟨s, hs⟩ := List.length_eq_one_iff.1 ((presentSymbols_length b.freq).trans h1)
  have hlen := congrArg List.length (h.codeOf_single hc h1 (s := s) (by simp [hs]))
  rw [b.codeOf_length, List.length_singleton] at hlen
  simp [hs, hlen]

/-- With one present symbol, whose code has length 1, WLEN is TOTAL (R152). -/
theorem Block.HoldsTree.wlen_eq_total (h1 : (presentEntries b.freq).length = 1) : b.wlen.toNat = b.total.toNat := by
  rw [h.wlen_toNat hc, h.total_toNat, codeCost, totalFreq]
  congr 1
  refine List.map_congr_left fun s hs => ?_
  rw [h.codeOf_single hc h1 hs, List.length_singleton, Nat.mul_one]

end block

theorem Block.Inv.holdsTree_and_codes {b : Block} (h : b.Inv) (hvalid : b.codesValid = true) :
    b.HoldsTree ∧ b.HoldsCodes :=
  ⟨h.holdsTree (h.codesTree hvalid), h.holdsCodes hvalid⟩

/-! ### The obligations -/

/-- Settles O52: the codes are the paths to the leaves, none of which begins another (`HTree.paths_prefix_free`). -/
theorem codesArePrefixFree : Obligations.CodesArePrefixFree := by
  intro b hinv hvalid
  obtain ⟨htree, hcodes⟩ := hinv.holdsTree_and_codes hvalid
  exact htree.codeOf_prefixFree_of_codes hcodes

/-- Settles O55: a symbol's frequency counts once in each internal node on its path (`HTree.inner_eq_sum_paths`). -/
theorem wlenIsSumOfInternalWeights : Obligations.WlenIsSumOfInternalWeights := by
  intro b hinv hvalid
  obtain ⟨htree, hcodes⟩ := hinv.holdsTree_and_codes hvalid
  rw [presentSymbols_length]
  exact ⟨fun h2 => (htree.wlen_eq_innerWeight hcodes h2).trans htree.innerWeight_eq, htree.wlen_eq_total hcodes⟩

/-- Settles O53: a code is a path of the tree, or "0" when it is one leaf, or nothing when the symbol is absent. -/
theorem codeLengthBounds : Obligations.CodeLengthBounds := by
  intro b hinv hvalid sym
  obtain ⟨htree, hcodes⟩ := hinv.holdsTree_and_codes hvalid
  have hpresent := mem_presentSymbols b.freq sym
  rw [presentSymbols_length]
  exact ⟨fun hsym => htree.codeLen_pos hcodes (hpresent.2 hsym),
    fun hsym => (htree.code_of_absent hcodes (mt hpresent.1 (not_not.2 hsym))).1,
    fun h2 => htree.codeLen_lt hcodes h2 sym, htree.codeVal_lt hcodes sym, htree.codeVal_bit255 hcodes sym⟩

/-- Settles O54: the codes use up every path of the tree (`HTree.sum_pow_paths`), or one code of length 1 uses half. -/
theorem kraftEquality : Obligations.KraftEquality := by
  intro b hinv hvalid
  obtain ⟨htree, hcodes⟩ := hinv.holdsTree_and_codes hvalid
  rw [presentSymbols_length]
  exact ⟨htree.kraft_of_many hcodes, htree.kraft_of_one hcodes⟩

/-- Settles O26: the hypothesis is the guard of GEN_CODES, which answers INVALID_INPUT. -/
theorem genCodesWithoutTreeFails : Obligations.GenCodesWithoutTreeFails := by
  intro s hnone
  have hrun : runOf .genCodes s.blk = .fail .invalidInput := if_pos hnone
  rw [exec_eq, hrun]; rfl

/-- Settles O27: the only effect of GEN_CODES is `Block.putCodes`. -/
theorem genCodesFrame : Obligations.GenCodesFrame := fun _ hvalid => ⟨_, exec_genCodes_of_tree hvalid, rfl⟩

/-- Settles O30: the hypothesis is the guard of READ_CODE, which answers INVALID_INPUT. -/
theorem readCodeWithoutCodesFails : Obligations.ReadCodeWithoutCodesFails := fun _ sym hnone =>
  exec_readCode_of_noCodes sym hnone

end Sys2Proof.Machine
end

section
/-! A failing completion is atomic (60_exceptions.md R168). -/

namespace Sys2Proof.Machine

/-- At the engine's turn the step is a completion, of a command's run or of the illegal word's (R84, R90). -/
theorem step_eq_complete {s : State} (turn : engineTurn s = true) : ∃ r, step s = .next (s.complete r) := by
  cases cmd : decode s.blk.curCmd with
  | command i => exact ⟨_, step_of_command turn cmd⟩
  | illegal why => exact ⟨_, step_of_illegal turn cmd⟩

/-- A run with effects reports code 0, so a completion whose code is not 0 is of a run that has none (R84, R168). -/
theorem State.complete_of_err_ne_zero {s : State} {r : Run} (herr : (s.complete r).blk.err ≠ 0#4) :
    s.complete r = s.withBlk
      { s.blk with err := (s.complete r).blk.err, errAcc := (s.complete r).blk.errAcc, phase := .idle } := by
  cases r with
  | ok effects => exact absurd rfl herr
  | fail code => rfl

/-- Settles O32: a command and an illegal word end in the same completion, which drops the effects of a failing run. -/
theorem failureIsAtomic : Obligations.FailureIsAtomic := by
  refine ⟨fun i s t hexec herr => ?_, fun s t turn hstep herr => ?_⟩
  · rw [exec_eq] at hexec
    obtain rfl := Host.Outcome.next.inj hexec
    exact State.complete_of_err_ne_zero herr
  · obtain ⟨r, hcomplete⟩ := step_eq_complete turn
    obtain rfl := Host.Outcome.next.inj (hcomplete.symm.trans hstep)
    exact State.complete_of_err_ne_zero herr

end Sys2Proof.Machine
end
